-- ==== Sys2Proof/Word.lean ====
section
/-! DEFINITION. The widths of the VM ISA's values: every value is an unsigned bit vector (R9), numbered from bit 0 (R8). -/

namespace Sys2Proof

/-- A value of a register, a memory cell, an address field, the program counter: `CELL_BITS` = `PC_BITS` = 32
(R7, R21, R26, R28; D1, D2; logs 2 and 3). -/
abbrev Word := BitVec 32

/-- One byte of the program stream (R27). -/
abbrev Byte := BitVec 8

/-- The opcode tag A, `TAG_BITS` = 7 (R7, R61). -/
abbrev Tag := BitVec 7

/-- The index of a general register: 0 to 7, every 3-bit value names a register (R20, R142). -/
abbrev RegIdx := Fin 8

/-- The constant field of LOAD_CONST, 24 bits (R7, R64). -/
abbrev Imm24 := BitVec 24

end Sys2Proof
end

