-- ==== Sys2Proof/Syntax.lean ====
section
/-! DEFINITION. The instructions: one constructor per row of spec/opcode_table.json, operands in the order B, C (R60, R82). -/

namespace Sys2Proof

/-- A decoded instruction (R2, R71). The operand types hold exactly the values the fields can encode (R64 to R67). -/
inductive Instr where
  /-- LOAD_CONST: B = destination register, C = 24-bit constant (R64, R100). -/
  | loadConst (rd : RegIdx) (imm24 : Imm24)
  /-- READ_MEM: B = memory address, C = destination register (R65, R110). -/
  | readMem (addr : Word) (rd : RegIdx)
  /-- WRITE_MEM: B = data register, C = address register (R66, R115). -/
  | writeMem (rs raddr : RegIdx)
  /-- POPCNT: B = destination register, C = memory address (R67, R131). -/
  | popcnt (rd : RegIdx) (addr : Word)
deriving DecidableEq, Repr

end Sys2Proof
end

