-- ==== Sys2Proof/WellFormed.lean ====
section
/-! DEFINITION. Which operands an instruction admits: the inclusive ranges of R85, checked on an instruction as it is written
(an opcode and two integers, R82), before it is narrowed to the operand types of `Instr`. -/

namespace Sys2Proof

/-- The four opcodes, the instruction's variant without its operands (R2). -/
inductive Op where
  | loadConst | readMem | writeMem | popcnt
deriving DecidableEq, Repr

/-- The opcode of an instruction (R71). -/
def Instr.op : Instr → Op
  | .loadConst _ _ => .loadConst
  | .readMem _ _ => .readMem
  | .writeMem _ _ => .writeMem
  | .popcnt _ _ => .popcnt

/-- The greatest value of field B (R85). -/
def Op.maxB : Op → Nat
  | .loadConst => 7
  | .readMem => 4294967295
  | .writeMem => 7
  | .popcnt => 7

/-- The greatest value of field C (R85). -/
def Op.maxC : Op → Nat
  | .loadConst => 16777215
  | .readMem => 7
  | .writeMem => 7
  | .popcnt => 4294967295

/-- An instruction as written: an opcode and two integer operands, of any size and sign (R82, R91). -/
structure RawInstr where
  op : Op
  b : Int
  c : Int
deriving DecidableEq, Repr

/-- Field B is in its inclusive range (R85; every minimum is 0, C5). -/
def RawInstr.bInRange (r : RawInstr) : Bool := decide (0 ≤ r.b) && decide (r.b ≤ (r.op.maxB : Int))

/-- Field C is in its inclusive range (R85; every minimum is 0, C5). -/
def RawInstr.cInRange (r : RawInstr) : Bool := decide (0 ≤ r.c) && decide (r.c ≤ (r.op.maxC : Int))

/-- Both fields are in range (R84, R85). -/
def RawInstr.wellFormed (r : RawInstr) : Bool := r.bInRange && r.cInRange

/-- An instruction as a source line would write it: field B first, then field C (R82). -/
def Instr.toRaw : Instr → RawInstr
  | .loadConst rd imm24 => ⟨.loadConst, rd.val, imm24.toNat⟩
  | .readMem addr rd => ⟨.readMem, addr.toNat, rd.val⟩
  | .writeMem rs raddr => ⟨.writeMem, rs.val, raddr.val⟩
  | .popcnt rd addr => ⟨.popcnt, rd.val, addr.toNat⟩

/-- A decoded instruction's operands are in range. Every value of every field is valid at decode time (R72), so this
holds of each `Instr` (Laws/PerInstr.lean); what it can refuse is a `RawInstr`. -/
def Instr.wellFormed (i : Instr) : Bool := i.toRaw.wellFormed

end Sys2Proof
end

