-- ==== Sys2Proof/Decode.lean ====
section
/-! DEFINITION. The decoder (30_encoding.md sections 1 to 4), total on any bytes, and after it the encoder (R87). -/

namespace Sys2Proof

/-- The tag constant of each opcode (R71). -/
def Op.tag : Op → Tag
  | .loadConst => 10#7
  | .readMem => 54#7
  | .writeMem => 39#7
  | .popcnt => 18#7

/-- `W(op)`: the instruction's length in bytes (R73). -/
def Op.width : Op → Nat
  | .loadConst => 5
  | .readMem => 6
  | .writeMem => 2
  | .popcnt => 6

/-- The width of field B in bits (R64 to R67). -/
def Op.widthB : Op → Nat
  | .loadConst => 3
  | .readMem => 32
  | .writeMem => 3
  | .popcnt => 3

/-- The width of field C in bits (R64 to R67). -/
def Op.widthC : Op → Nat
  | .loadConst => 24
  | .readMem => 3
  | .writeMem => 3
  | .popcnt => 32

/-- The length of a decoded instruction (R73). -/
def Instr.width (i : Instr) : Nat := i.op.width

/-- The opcode a tag selects; none for the 124 illegal tags (R71, R72). -/
def opOfTag (t : Tag) : Option Op :=
  if t = 10#7 then some .loadConst
  else if t = 54#7 then some .readMem
  else if t = 39#7 then some .writeMem
  else if t = 18#7 then some .popcnt
  else none

/-- The opcode tag: the low 7 bits of the first byte; bit 7 is `B[0]` (R61, R70). -/
def tagOf (b : Byte) : Tag := b.extractLsb' 0 7

/-- The instruction integer `I`: the bytes, the first one least significant (R42, R62). -/
def instrInt : List Byte → Nat
  | [] => 0
  | b :: bs => b.toNat + 256 * instrInt bs

/-- Field B of `I`: starts at bit 7, masked to its width (R63). -/
def fieldB (op : Op) (I : Nat) : Nat := (I >>> 7) &&& (2 ^ op.widthB - 1)

/-- Field C of `I`: right after B, masked to its width (R63). -/
def fieldC (op : Op) (I : Nat) : Nat := (I >>> (7 + op.widthB)) &&& (2 ^ op.widthC - 1)

/-- The instruction with these two field values, each narrowed to its operand type (R68). -/
def instrOfFields (op : Op) (b c : Nat) : Instr :=
  match op with
  | .loadConst => .loadConst (Fin.ofNat 8 b) (BitVec.ofNat 24 c)
  | .readMem => .readMem (BitVec.ofNat 32 b) (Fin.ofNat 8 c)
  | .writeMem => .writeMem (Fin.ofNat 8 b) (Fin.ofNat 8 c)
  | .popcnt => .popcnt (Fin.ofNat 8 b) (BitVec.ofNat 32 c)

/-- The instruction an instruction integer holds, its opcode already selected (R63, R75). -/
def instrOfInt (op : Op) (I : Nat) : Instr := instrOfFields op (fieldB op I) (fieldC op I)

/-- What the decoder answers (R75): an instruction with its width, or one of the two decode faults with what the fault
reports. `noByte` stands outside the rule's precondition `pc < L`: there is no byte at `pc` (log 7). -/
inductive Decoded where
  | instr (i : Instr) (width : Nat)
  | unknownOpcode (tag : Tag)
  | truncated (tag : Tag) (remaining : Nat)
  | noByte
deriving DecidableEq, Repr

/-- `Decode` on the bytes from `pc` to the end of the stream: the tag, then the length, then the fields (R75, R145).
It reads no byte beyond the `W` bytes of the instruction (R76). -/
def decode (bytes : List Byte) : Decoded :=
  match bytes with
  | [] => .noByte
  | first :: _ =>
    match opOfTag (tagOf first) with
    | none => .unknownOpcode (tagOf first)
    | some op =>
      if bytes.length < op.width then .truncated (tagOf first) bytes.length
      else .instr (instrOfInt op (instrInt (bytes.take op.width))) op.width

/-- The low `n` bytes of an integer, least significant first (R62, R87). -/
def bytesLE : Nat → Nat → List Byte
  | 0, _ => []
  | n + 1, v => BitVec.ofNat 8 v :: bytesLE n (v / 256)

/-- The value of field B of an instruction (R64 to R67). -/
def Instr.fieldB : Instr → Nat
  | .loadConst rd _ => rd.val
  | .readMem addr _ => addr.toNat
  | .writeMem rs _ => rs.val
  | .popcnt rd _ => rd.val

/-- The value of field C of an instruction (R64 to R67). -/
def Instr.fieldC : Instr → Nat
  | .loadConst _ imm24 => imm24.toNat
  | .readMem _ rd => rd.val
  | .writeMem _ raddr => raddr.val
  | .popcnt _ addr => addr.toNat

/-- The instruction integer of an instruction: `A | B << 7 | C << (7 + wB)`, unused bits 0 (R69, R87). -/
def encodeInt (i : Instr) : Nat :=
  i.op.tag.toNat ||| (i.fieldB <<< 7) ||| (i.fieldC <<< (7 + i.op.widthB))

/-- The bytes of an instruction (R87). -/
def encode (i : Instr) : List Byte := bytesLE i.width (encodeInt i)

/-- The longest instruction, in bytes (R60). -/
def maxWidth : Nat := 6

/-- The bytes of a table row's word: `nbits` bits of `w`, every higher bit 0, up to the longest instruction (log 9). -/
def tableWordBytes (nbits w : Nat) : List Byte := bytesLE maxWidth (w % 2 ^ nbits)

/-- The instruction the decoder reads from an instruction whose bits are `w` (spec/opcode_table.json's numbering). -/
def decodeTableWord (nbits w : Nat) : Option Instr :=
  match decode (tableWordBytes nbits w) with
  | .instr i _ => some i
  | .unknownOpcode _ => none
  | .truncated _ _ => none
  | .noByte => none

end Sys2Proof
end

