-- ==== Sys2Proof/Config.lean ====
section
/-! DEFINITION. The block's parameters (R7). The spec leaves no value free after an instruction, so nothing here is opaque. -/

namespace Sys2Proof.Config

/-- `NCELLS`: the number of data memory cells (R7, R26). -/
abbrev ncells : Nat := 1024

/-- The greatest program length, `L <= 2^32 - 1` (R7, R172; D2; log 3). -/
abbrev maxProgramLength : Nat := 2 ^ 32 - 1

/-- `POPCNT_WRITES_MEM`, default true: whether POPCNT writes the cell as well as the register
(R131 and D4 say it does; U2 asks for a parameter; log 5). -/
abbrev popcntWritesMem : Bool := true

end Sys2Proof.Config
end

