-- ==== Sys2Proof/Machine/State.lean ====
section
/-! DEFINITION. The block's whole state (10_state.md), its reset (R170), and the ways the model's step can stop. -/

namespace Sys2Proof.Machine

/-- `RUN_STATE` (R32). -/
inductive RunState where
  /-- Instructions execute. -/
  | running
  /-- The success terminal state, `pc == L` (R78). -/
  | halted
  /-- The failure terminal state (R140). -/
  | faulted
deriving DecidableEq, Repr

/-- `FAULT_KIND`: the five faults, and none (R141). -/
inductive FaultKind where
  | none
  | unknownOpcode
  | truncatedInstruction
  | memoryReadOutOfBounds
  | memoryWriteOutOfBounds
  | memoryPopcntOutOfBounds
deriving DecidableEq, Repr

/-- The general register file: 8 registers of 32 bits, none hard-wired (R20, R21). -/
abbrev RegFile := Vector Word 8

/-- The data memory: (cell address, 32-bit cell) pairs in canonical form, addresses strictly rising and no cell that holds
what an unlisted cell reads as, 0 (R26, R41; log 1). -/
abbrev Memory := List (Nat × Word)

/-- All the state there is (10_state.md; R35, R36: nothing else is state). -/
structure State where
  /-- `x[0]` to `x[7]` (R20). -/
  x : RegFile
  /-- `mem[0]` to `mem[1023]` (R26). -/
  mem : Memory
  /-- The program stream `P`; its length is `L` (R27; log 19). -/
  program : List Byte
  /-- The program counter, a byte offset into `P` (R28, R31). -/
  pc : Word
  /-- `RUN_STATE` (R32). -/
  runState : RunState
  /-- `FAULT_KIND` (R33). -/
  faultKind : FaultKind
  /-- `FAULT_PC` (R33). -/
  faultPc : Word
  /-- `FAULT_INFO` (R33). -/
  faultInfo : Word
deriving DecidableEq, Repr

/-- Why the model's step stops. The five faults of R141 are NOT here: a step takes them, into a next state (R143). -/
inductive Fault where
  /-- Raised by the step in `Halted`, the final state of success: no step is defined there (R77). Safe: nothing runs (log 6). -/
  | runHalted
  /-- Raised by the step in `Faulted`: the run is over and is never resumed (R77, R140, R148). Safe: nothing runs (log 6). -/
  | runFaulted
  /-- Raised by the step in `Running` with no program byte at `pc`, which R32 says never holds. Safe: no run reaches it (log 7). -/
  | fetchOutsideStream
deriving DecidableEq, Repr

/-- What the model refuses. -/
inductive Refusal where
  /-- An instruction with no meaning yet: no arm of `exec` raises it. Safe. -/
  | notModelled (mnemonic : String)
  /-- Raised at launch for a stream longer than `2^32 - 1` bytes, which the host may not supply (R172, D2, U6). Safe (log 3). -/
  | programTooLong
deriving DecidableEq, Repr

/-- Reset with the stream the host supplies for this run (R170). -/
def State.resetWith (program : List Byte) : State where
  x := Vector.replicate 8 0#32
  mem := []
  program := program
  pc := 0#32
  runState := if program.length = 0 then .halted else .running
  faultKind := .none
  faultPc := 0#32
  faultInfo := 0#32

/-- Reset before a host has supplied a stream: the empty stream, so `Halted` (R170, R171; DESIGN CHOICE, log 8). -/
def State.reset : State := State.resetWith []

end Sys2Proof.Machine
end

