-- ==== Sys2Proof/Machine/Operands.lean ====
section
/-! DEFINITION. The operand forms (R68), address validation and translation (R49, R50), the population counter (R130). -/

namespace Sys2Proof.Machine

/-- `Valid(a)`: the address names a cell (R49). -/
def validAddr (a : Word) : Bool := decide (a.toNat < Config.ncells)

/-- The address translator: a valid address selects the cell of the same number (R50, R111). -/
def translateAddr (a : Word) : Nat := a.toNat

/-- The constant field as a register value, `zext_32` (R9, R68). -/
def zext32 (c : Imm24) : Word := c.setWidth 32

/-- `popcount(v)`: the sum of the 32 bits of `v` (R130, R132). -/
def popcount (v : Word) : Nat := ((List.range 32).map fun i => (v.getLsbD i).toNat).sum

/-- The population counter's output as a register or cell value (R131, R132). -/
def popcountWord (v : Word) : Word := BitVec.ofNat 32 (popcount v)

end Sys2Proof.Machine
end

