-- ==== Sys2Proof/Machine/Ops.lean ====
section
/-! DEFINITION. The operations every meaning is made of: registers, memory cells, taking a fault, advancing the program
counter. There is no return from a fault (R148), so none stands here. -/

namespace Sys2Proof.Machine

/-- What one step or one instruction answers. -/
abbrev Outcome := Host.Outcome State Fault Refusal

/-- Cell `a` of the memory; an unlisted cell reads as its reset value 0 (R26, R53). -/
def Memory.read : Memory → Nat → Word
  | [], _ => 0#32
  | (b, w) :: m, a => if a = b then w else Memory.read m a

/-- `mem[a] <- v`, keeping the canonical form: writing 0 removes the entry (R46; log 1). -/
def Memory.write : Memory → Nat → Word → Memory
  | [], a, v => if v = 0#32 then [] else [(a, v)]
  | (b, w) :: m, a, v =>
    if a < b then (if v = 0#32 then (b, w) :: m else (a, v) :: (b, w) :: m)
    else if a = b then (if v = 0#32 then m else (a, v) :: m)
    else (b, w) :: Memory.write m a v

/-- The canonical form from address `lo` on: addresses strictly rising and below 1024, no cell 0. -/
def Memory.wfFrom (lo : Nat) : Memory → Bool
  | [] => true
  | (a, v) :: m => decide (lo ≤ a) && decide (a < Config.ncells) && decide (v ≠ 0#32) && Memory.wfFrom (a + 1) m

/-- The canonical form of the memory (log 1). -/
def Memory.wf (m : Memory) : Bool := Memory.wfFrom 0 m

/-- `x[r]` (R20). -/
def State.readReg (s : State) (r : RegIdx) : Word := s.x[r.val]

/-- `x[r] <- v` (R20, R101). -/
def State.writeReg (s : State) (r : RegIdx) (v : Word) : State := { s with x := s.x.set r.val v }

/-- `MemRead(a, 1)`, the address already validated (R10, R46). -/
def State.readCell (s : State) (a : Nat) : Word := Memory.read s.mem a

/-- `MemWrite(a, 1, v)`, the address already validated (R10, R46). -/
def State.writeCell (s : State) (a : Nat) (v : Word) : State := { s with mem := Memory.write s.mem a v }

/-- `raise Fault(kind, info)`: the fault record is written, the run is `Faulted`, and nothing else changes; `pc` stays at the
faulting instruction's first byte (R10, R140, R143, R144, R148). -/
def State.raiseFault (s : State) (kind : FaultKind) (info : Word) : State :=
  { s with runState := .faulted, faultKind := kind, faultPc := s.pc, faultInfo := info }

/-- The end of a step that raised nothing: `pc <- pc + W`, and `Halted` if `pc` is then `L` (R30, R77, R78). -/
def State.retire (s : State) (width : Nat) : State :=
  { s with
    pc := s.pc + BitVec.ofNat 32 width
    runState := if (s.pc + BitVec.ofNat 32 width).toNat = s.program.length then .halted else s.runState }

/-- Validate `a` before anything is read or written: the effect on the translated cell number if it is valid, the
instruction's own bounds fault if not (R49, R50, R175). -/
def checkedAccess (kind : FaultKind) (a : Word) (s : State) (effect : Nat → State) : Outcome :=
  if validAddr a then .next (effect (translateAddr a)) else .next (s.raiseFault kind a)

end Sys2Proof.Machine
end

