-- ==== Sys2Proof/Machine/Cycle.lean ====
section
/-! DEFINITION. The instruction cycle (R77): fetch and decode at `pc`, execute, or take a decode fault. -/

namespace Sys2Proof.Machine

/-- `Decode(P, L, pc)`: the decoder on the bytes from `pc` to the end of the stream (R61, R75, R81). -/
def State.fetch (s : State) : Decoded := decode (s.program.drop s.pc.toNat)

/-- `FAULT_INFO` of a truncated instruction: the tag in bits 6..0, the bytes remaining from bit 8 up (R76). -/
def truncatedInfo (tag : Tag) (remaining : Nat) : Word :=
  BitVec.ofNat 32 (tag.toNat ||| (remaining <<< 8))

/-- One step with `run` as the execution of a decoded instruction. A decode fault is taken, with nothing executed
(R72, R76, R143). No step is defined in `Halted` or `Faulted`, nor in `Running` without a byte at `pc` (R77; logs 6, 7). -/
def instructionCycle (run : Instr → State → Outcome) (s : State) : Outcome :=
  match s.runState with
  | .halted => .fault .runHalted
  | .faulted => .fault .runFaulted
  | .running =>
    match s.fetch with
    | .instr i _ => run i s
    | .unknownOpcode tag => .next (s.raiseFault .unknownOpcode (tag.setWidth 32))
    | .truncated tag remaining => .next (s.raiseFault .truncatedInstruction (truncatedInfo tag remaining))
    | .noByte => .fault .fetchOutsideStream

/-- The stream with `bytes` placed at `offset`: what stood there is replaced, a gap before it is filled with zero bytes,
what follows is kept (log 9). -/
def placeBytes (program : List Byte) (offset : Nat) (bytes : List Byte) : List Byte :=
  program.take offset ++ List.replicate (offset - program.length) 0#8 ++ bytes ++ program.drop (offset + bytes.length)

end Sys2Proof.Machine
end

