-- ==== Sys2Proof/Machine/LoadConst.lean ====
section
/-! DEFINITION. LOAD_CONST (40_load_const.md). -/

namespace Sys2Proof.Machine

/-- `x[B] <- zext_32(C)`; it raises no fault (R100, R142). -/
def execLoadConst (rd : RegIdx) (imm24 : Imm24) (s : State) : Outcome :=
  .next ((s.writeReg rd (zext32 imm24)).retire Op.loadConst.width)

end Sys2Proof.Machine
end

