-- ==== Sys2Proof/Machine/MemoryAccess.lean ====
section
/-! DEFINITION. READ_MEM and WRITE_MEM (41_memory_access.md). -/

namespace Sys2Proof.Machine

/-- `x[C] <- mem[B]`, or `MemoryReadOutOfBounds` with info B (R110, R111). -/
def execReadMem (addr : Word) (rd : RegIdx) (s : State) : Outcome :=
  checkedAccess .memoryReadOutOfBounds addr s fun a =>
    (s.writeReg rd (s.readCell a)).retire Op.readMem.width

/-- `mem[x[C]] <- x[B]`, or `MemoryWriteOutOfBounds` with info `x[C]`; both registers are read before the write
(R115, R116, R175). -/
def execWriteMem (rs raddr : RegIdx) (s : State) : Outcome :=
  checkedAccess .memoryWriteOutOfBounds (s.readReg raddr) s fun a =>
    (s.writeCell a (s.readReg rs)).retire Op.writeMem.width

end Sys2Proof.Machine
end

