-- ==== Sys2Proof/Machine/Popcnt.lean ====
section
/-! DEFINITION. POPCNT (42_popcnt.md). -/

namespace Sys2Proof.Machine

/-- POPCNT with the parameter `POPCNT_WRITES_MEM` left open (U2): the count goes to `x[B]`, and to `mem[C]` if
`writesMem`; or `MemoryPopcntOutOfBounds` with info C. -/
def popcntWith (writesMem : Bool) (rd : RegIdx) (addr : Word) (s : State) : Outcome :=
  checkedAccess .memoryPopcntOutOfBounds addr s fun a =>
    let v := popcountWord (s.readCell a)
    ((if writesMem then s.writeCell a v else s).writeReg rd v).retire Op.popcnt.width

/-- `v := popcount(mem[C]); mem[C] <- v; x[B] <- v`: both writes (R131, R132; D4; log 5). -/
def execPopcnt (rd : RegIdx) (addr : Word) (s : State) : Outcome :=
  popcntWith Config.popcntWritesMem rd addr s

end Sys2Proof.Machine
end

