-- ==== Sys2Proof/Machine/Dispatch.lean ====
section
/-! DEFINITION. What each instruction does: one arm per constructor (R77). -/

namespace Sys2Proof.Machine

def exec (i : Instr) (s : State) : Host.Outcome State Fault Refusal :=
  match i with
  | .loadConst rd imm24 => Sys2Proof.Machine.execLoadConst rd imm24 s
  | .readMem addr rd => Sys2Proof.Machine.execReadMem addr rd s
  | .writeMem rs raddr => Sys2Proof.Machine.execWriteMem rs raddr s
  | .popcnt rd addr => Sys2Proof.Machine.execPopcnt rd addr s

end Sys2Proof.Machine
end

