-- ==== Sys2Proof/Machine/Step.lean ====
section
/-! DEFINITION. One step of the block, and where it fetches its next instruction. -/

namespace Sys2Proof.Machine

/-- One step: exactly one instruction, or one decode fault (R77, R178). -/
def step (s : State) : Host.Outcome State Fault Refusal := instructionCycle exec s

/-- `s` with a table row's word in the program stream at `pc`, in `Running`, so that the next step runs it: the stream is
supplied from outside the machine (R27, R172), and this stands for that (logs 8 and 9). -/
def State.withFetchWord (s : State) (nbits w : Nat) : State :=
  { s with program := placeBytes s.program s.pc.toNat (tableWordBytes nbits w), runState := .running }

end Sys2Proof.Machine
end

