-- ==== Sys2Proof/Machine/Assembler.lean ====
section
/-! DEFINITION. The translator from source lines to the program stream (R82 to R93): software outside the block (R4(b)), modelled
because it fixes which streams are programs. `step` does not use it. Text is a list of characters a line (log 14). -/

namespace Sys2Proof.Machine

/-- A source line, or one token of it (R82). -/
abbrev Text := List Char

/-- The two operand fields (R60). -/
inductive OperandField where
  | b | c
deriving DecidableEq, Repr

/-- The translator's errors (R84, R86, R91). -/
inductive AsmError where
  | unknownOpcode (token : Text)
  | fieldOutOfRange (field : OperandField) (value : Int) (op : Op)
  | malformedLine
deriving DecidableEq, Repr

/-- The log record of one encoded instruction (R89, C3). -/
structure LogRecord where
  a : Nat
  b : Nat
  c : Nat
deriving DecidableEq, Repr

/-- The mnemonics, in upper case (R82, R86). -/
def Op.name : Op → Text
  | .loadConst => ['L', 'O', 'A', 'D', '_', 'C', 'O', 'N', 'S', 'T']
  | .readMem => ['R', 'E', 'A', 'D', '_', 'M', 'E', 'M']
  | .writeMem => ['W', 'R', 'I', 'T', 'E', '_', 'M', 'E', 'M']
  | .popcnt => ['P', 'O', 'P', 'C', 'N', 'T']

/-- White space: space, tab, line feed, vertical tab, form feed, carriage return (DESIGN CHOICE, log 14). -/
def isSpace (c : Char) : Bool :=
  c = ' ' || c = '\t' || c = '\n' || c = '\x0b' || c = '\x0c' || c = '\r'

/-- Put a character in front of the first token. -/
def consHead (c : Char) : List Text → List Text
  | [] => [[c]]
  | t :: ts => (c :: t) :: ts

/-- The whitespace-separated tokens of a line (R82). -/
def tokens : Text → List Text
  | [] => []
  | c :: cs =>
    if isSpace c then tokens cs
    else
      match cs with
      | [] => [[c]]
      | d :: _ => if isSpace d then [c] :: tokens cs else consHead c (tokens cs)

/-- The opcode a mnemonic names, in any letter case (R82). -/
def opOfToken (t : Text) : Option Op :=
  [Op.loadConst, .readMem, .writeMem, .popcnt].find? fun op => decide (t.map Char.toUpper = Op.name op)

/-- The value of a decimal digit. -/
def digitValue (c : Char) : Option Nat :=
  if '0'.toNat ≤ c.toNat ∧ c.toNat ≤ '9'.toNat then some (c.toNat - '0'.toNat) else none

/-- Digits, most significant first, after the value `acc` already read. -/
def parseDigits (acc : Nat) : Text → Option Nat
  | [] => some acc
  | c :: cs =>
    match digitValue c with
    | some d => parseDigits (10 * acc + d) cs
    | none => none

/-- An unsigned decimal integer: at least one digit, and digits only (R91). -/
def parseNat : Text → Option Nat
  | [] => none
  | t => parseDigits 0 t

/-- A decimal integer with an optional leading sign (R91). -/
def parseInt : Text → Option Int
  | '-' :: t => (parseNat t).map fun n => -(n : Int)
  | '+' :: t => (parseNat t).map fun n => (n : Int)
  | t => (parseNat t).map fun n => (n : Int)

/-- The two operands that must follow the mnemonic (R82, R91). -/
def parseOperands (op : Op) (args : List Text) : Except AsmError RawInstr :=
  match args with
  | [tb, tc] =>
    match parseInt tb, parseInt tc with
    | some b, some c => .ok ⟨op, b, c⟩
    | _, _ => .error .malformedLine
  | _ => .error .malformedLine

/-- A line's instruction as written; none for an empty line or a comment (R82, R83). An unknown mnemonic is reported before
anything about the operands (R84). -/
def parseLine (line : Text) : Except AsmError (Option RawInstr) :=
  match tokens line with
  | [] => .ok none
  | t :: args =>
    if t.head? = some '#' then .ok none
    else
      match opOfToken t with
      | none => .error (.unknownOpcode t)
      | some op => (parseOperands op args).map some

/-- Field B's range is checked, then field C's; the first that fails decides the error (R84, R85, R86). -/
def narrow (r : RawInstr) : Except AsmError Instr :=
  if r.bInRange then
    if r.cInRange then .ok (instrOfFields r.op r.b.toNat r.c.toNat)
    else .error (.fieldOutOfRange .c r.c r.op)
  else .error (.fieldOutOfRange .b r.b r.op)

/-- The log record of an instruction: A is the tag, for all four (R89). -/
def logRecord (i : Instr) : LogRecord := ⟨i.op.tag.toNat, i.fieldB, i.fieldC⟩

/-- Encode an instruction as written, or name the field that is out of range (R84 to R87). -/
def encodeRaw (r : RawInstr) : Except AsmError (List Byte) := (narrow r).map encode

/-- A line's instruction, checked; none for a skipped line (R83, R84). -/
def translateLine (line : Text) : Except AsmError (Option Instr) :=
  match parseLine line with
  | .error e => .error e
  | .ok none => .ok none
  | .ok (some r) => (narrow r).map some

/-- The instructions of a program's lines, in order; the first malformed line aborts the translation (R88, R90). -/
def translateInstrs : List Text → Except AsmError (List Instr)
  | [] => .ok []
  | line :: rest =>
    match translateLine line with
    | .error e => .error e
    | .ok none => translateInstrs rest
    | .ok (some i) => (translateInstrs rest).map (i :: ·)

/-- The stream and the log of a program (R88, R89, R90). -/
def assemble (lines : List Text) : Except AsmError (List Byte × List LogRecord) :=
  (translateInstrs lines).map fun is => (is.flatMap encode, is.map logRecord)

/-- The field's letter in the error message (R86). -/
def OperandField.letter : OperandField → String
  | .b => "B"
  | .c => "C"

/-- The greatest value of a field (R85). -/
def OperandField.max (f : OperandField) (op : Op) : Nat :=
  match f with
  | .b => op.maxB
  | .c => op.maxC

/-- The message of an error: the out-of-range field's has the format of R86, its opcode in upper case (D12). The other two
errors have no stated format; theirs is the kind's name alone (log 14). -/
def AsmError.message : AsmError → String
  | .unknownOpcode _ => "UnknownOpcode"
  | .fieldOutOfRange f v op =>
    "Field " ++ f.letter ++ "=" ++ toString v ++ " out of range for " ++ String.ofList (Op.name op) ++ " (0-"
      ++ toString (f.max op) ++ ")"
  | .malformedLine => "MalformedLine"

end Sys2Proof.Machine
end

