-- ==== Sys2Proof/Machine/Datapath.lean ====
section
/-! DEFINITION. The block's structure as the spec organises it (D14; log 15): decoder outputs (R74), the write-back mux (R101),
the address translator in its hardware form (R50, R111), the memory ports (R116, R132) and their use (R177). It is a second
description of what `exec` does, made of slices and ports; `step` does not use it. -/

namespace Sys2Proof.Machine

/-- The decoder's outputs; an output the instruction does not drive is none (R74). -/
structure Signals where
  op : Op
  width : Nat
  rd : Option RegIdx
  rsData : Option RegIdx
  rsAddr : Option RegIdx
  imm24 : Option Imm24
  addr32 : Option Word
deriving DecidableEq, Repr

/-- The 3-bit register slice `I[lo+2:lo]` (R74). -/
def regSlice (I : BitVec 48) (lo : Nat) : RegIdx := (I.extractLsb' lo 3).toFin

/-- Each output as a fixed slice of the instruction integer, chosen by the opcode (R74). -/
def decoderOutputs (op : Op) (I : BitVec 48) : Signals :=
  match op with
  | .loadConst =>
    { op := op, width := 5, rd := some (regSlice I 7), rsData := none, rsAddr := none,
      imm24 := some (I.extractLsb' 10 24), addr32 := none }
  | .readMem =>
    { op := op, width := 6, rd := some (regSlice I 39), rsData := none, rsAddr := none,
      imm24 := none, addr32 := some (I.extractLsb' 7 32) }
  | .writeMem =>
    { op := op, width := 2, rd := none, rsData := some (regSlice I 7), rsAddr := some (regSlice I 10),
      imm24 := none, addr32 := none }
  | .popcnt =>
    { op := op, width := 6, rd := some (regSlice I 7), rsData := none, rsAddr := none,
      imm24 := none, addr32 := some (I.extractLsb' 10 32) }

/-- The data address the instruction presents to the translator: an address field, or register read port 1 (R40, R116). -/
def dataAddress (g : Signals) (s : State) : Option Word :=
  match g.addr32 with
  | some a => some a
  | none => g.rsAddr.map s.readReg

/-- The bounds check in hardware form: `a[31:10] = 0` (R50). -/
def addressInBounds (a : Word) : Bool := decide (a.extractLsb' 10 22 = 0#22)

/-- The cell index in hardware form: `a[9:0]` (R50). -/
def cellIndex (a : Word) : Nat := (a.extractLsb' 0 10).toNat

/-- The fault an opcode's bounds check raises (R141, R142). -/
def boundsFault : Op → FaultKind
  | .loadConst => .none
  | .readMem => .memoryReadOutOfBounds
  | .writeMem => .memoryWriteOutOfBounds
  | .popcnt => .memoryPopcntOutOfBounds

/-- The cell the translator gives the memory ports. It is none without a data address, and none when the bounds check fails:
both memory ports are enabled only when `Valid(a)` holds (R50, R111, R116). -/
def selectedCell (g : Signals) (s : State) : Option Nat :=
  match dataAddress g s with
  | some a => if addressInBounds a then some (cellIndex a) else none
  | none => none

/-- The memory read port's data, enabled for READ_MEM and POPCNT at a valid address (R111, R132, R177). -/
def memReadData (g : Signals) (s : State) : Option Word :=
  match g.op, selectedCell g s with
  | .readMem, some a => some (s.readCell a)
  | .popcnt, some a => some (s.readCell a)
  | _, _ => none

/-- The register write-back mux: the write address and data, none when the write is not enabled. Without memory read data the
step has faulted, and nothing is written back (R101). -/
def writeBack (g : Signals) (s : State) : Option (RegIdx × Word) :=
  match g.op, g.rd, g.imm24, memReadData g s with
  | .loadConst, some rd, some imm24, _ => some (rd, zext32 imm24)
  | .readMem, some rd, _, some v => some (rd, v)
  | .popcnt, some rd, _, some v => some (rd, popcountWord v)
  | _, _, _, _ => none

/-- The memory write port, enabled at a valid address: register read port 2 for WRITE_MEM, the population count for POPCNT
(R116, R132, R177; log 5). -/
def memWritePort (g : Signals) (s : State) : Option (Nat × Word) :=
  match g.op, selectedCell g s, g.rsData, memReadData g s with
  | .writeMem, some a, some rs, _ => some (a, s.readReg rs)
  | .popcnt, some a, _, some v => if Config.popcntWritesMem then some (a, popcountWord v) else none
  | _, _, _, _ => none

/-- Drive the memory write port. -/
def State.drive (s : State) (port : Option (Nat × Word)) : State :=
  match port with
  | some (a, v) => s.writeCell a v
  | none => s

/-- Drive the register write port. -/
def State.writeBackTo (s : State) (port : Option (RegIdx × Word)) : State :=
  match port with
  | some (r, v) => s.writeReg r v
  | none => s

/-- Execute from the decoder's outputs: the bounds check first, then both write ports, whose inputs are taken from the state
before any write (R101, R116, R175). -/
def datapathExecute (g : Signals) (s : State) : Outcome :=
  let written := ((s.drive (memWritePort g s)).writeBackTo (writeBack g s)).retire g.width
  match dataAddress g s with
  | none => .next written
  | some a => if addressInBounds a then .next written else .next (s.raiseFault (boundsFault g.op) a)

/-- Which ports an instruction uses (R176, R177). -/
structure PortUse where
  regRead1 : Bool
  regRead2 : Bool
  regWrite : Bool
  memRead : Bool
  memWrite : Bool
  fetchBytes : Nat
deriving DecidableEq, Repr

/-- The port-use table (R177). -/
def portUse : Op → PortUse
  | .loadConst => ⟨false, false, true, false, false, 5⟩
  | .readMem => ⟨false, false, true, true, false, 6⟩
  | .writeMem => ⟨true, true, false, false, true, 2⟩
  | .popcnt => ⟨false, false, true, true, true, 6⟩

/-- The ports of an instruction that its bounds check stops: register reads come before the check, every memory access and
every write after it (R144, R175, R177). -/
def PortUse.beforeAccess (p : PortUse) : PortUse :=
  { p with regWrite := false, memRead := false, memWrite := false }

/-- The use of a step that decodes no instruction: the program fetch alone (R75, R177). -/
def PortUse.fetchOnly (bytes : Nat) : PortUse := ⟨false, false, false, false, false, bytes⟩

/-- The ports an instruction's signals drive; those its bounds check turns off are not driven (R177). -/
def portsDriven (g : Signals) (s : State) : PortUse :=
  ⟨g.rsAddr.isSome, g.rsData.isSome, (writeBack g s).isSome, (memReadData g s).isSome, (memWritePort g s).isSome, g.width⟩

/-- The ports one step uses (R177). A step that faults in decode has read the tag's byte and used no other port: both decode
checks come before the other bytes are read (DEDUCED from R75; log 15). -/
def stepPorts (s : State) : PortUse :=
  match s.runState with
  | .halted => .fetchOnly 0
  | .faulted => .fetchOnly 0
  | .running =>
    match s.fetch with
    | .instr i w => portsDriven (decoderOutputs i.op (BitVec.ofNat 48 (instrInt ((s.program.drop s.pc.toNat).take w)))) s
    | .unknownOpcode _ => .fetchOnly 1
    | .truncated _ _ => .fetchOnly 1
    | .noByte => .fetchOnly 0

end Sys2Proof.Machine
end

