-- ==== Sys2Proof/Machine/Flags.lean ====
section
/-! DEFINITION. The block has no flags or condition codes (R36): no instruction computes one. What it has are read-only
status fields, the block's only control and status registers (R34); their encodings stand here. -/

namespace Sys2Proof.Machine

/-- `RUN_STATE` as a 2-bit field; 3 is never produced (R34). -/
def RunState.code : RunState → BitVec 2
  | .running => 0#2
  | .halted => 1#2
  | .faulted => 2#2

/-- `FAULT_KIND` as a 3-bit field; 6 and 7 are never produced (R33, R141; D5). -/
def FaultKind.code : FaultKind → BitVec 3
  | .none => 0#3
  | .unknownOpcode => 1#3
  | .truncatedInstruction => 2#3
  | .memoryReadOutOfBounds => 3#3
  | .memoryWriteOutOfBounds => 4#3
  | .memoryPopcntOutOfBounds => 5#3

/-- The status fields as the host reads them (R33, R34). -/
structure Status where
  runState : BitVec 2
  faultKind : BitVec 3
  faultPc : Word
  faultInfo : Word
deriving DecidableEq, Repr

/-- Reading the status fields; it changes nothing (R34, R59). -/
def State.status (s : State) : Status :=
  ⟨s.runState.code, s.faultKind.code, s.faultPc, s.faultInfo⟩

end Sys2Proof.Machine
end

