-- ==== Sys2Proof/Machine/HostPort.lean ====
section
/-! DEFINITION. What the host can do to the block (R59, R173): supply a stream and reset, and read results after the run.
Reading the status fields is `State.status` (Machine/Flags.lean). -/

namespace Sys2Proof.Machine

/-- Supply `P` and reset (R170, R172, R173); a stream longer than `2^32 - 1` bytes is refused (D2, U6; log 3). -/
def State.launch (program : List Byte) : Outcome :=
  if program.length ≤ Config.maxProgramLength then .next (State.resetWith program) else .refused .programTooLong

/-- One value of a host's request, an integer or anything else (R150; log 10). -/
inductive HostValue where
  | int (n : Int)
  | other
deriving DecidableEq, Repr

/-- The read-out port's answers (R150). -/
inductive PortResponse where
  | ok (cells : List Word)
  | memoryRangeOutOfBounds
  | invalidMemoryRangeFormat
  | noResult
deriving DecidableEq, Repr

/-- The cells `mem[start .. end-1]` in memory-address order (R58). -/
def State.slice (s : State) (start stop : Nat) : List Word :=
  (List.range' start (stop - start)).map s.readCell

/-- A range the port accepts (R58). -/
def validRange (start stop : Int) : Bool :=
  decide (0 ≤ start) && decide (start ≤ stop) && decide (stop ≤ (Config.ncells : Int))

/-- A request to the read-out port, checked in the order format, range, run state; it changes no state (R58, R150; D7, D8). -/
def State.readSlice (s : State) (request : List HostValue) : PortResponse :=
  match request with
  | [.int start, .int stop] =>
    if validRange start stop then
      match s.runState with
      | .halted => .ok (s.slice start.toNat stop.toNat)
      | .running => .noResult
      | .faulted => .noResult
    else .memoryRangeOutOfBounds
  | _ => .invalidMemoryRangeFormat

/-- What may be said of a run (R180): nothing before its end, registers and memory after `Halted`, the fault record alone
after `Faulted` (D7, D13; log 11). -/
inductive Observation where
  | unfinished
  | halted (x : RegFile) (mem : Memory)
  | faulted (kind : FaultKind) (pc : Word) (info : Word)
deriving DecidableEq, Repr

/-- The observation of a state (R180). -/
def State.observe (s : State) : Observation :=
  match s.runState with
  | .running => .unfinished
  | .halted => .halted s.x s.mem
  | .faulted => .faulted s.faultKind s.faultPc s.faultInfo

end Sys2Proof.Machine
end

