-- ==== Sys2Proof/Safety.lean ====
section
/-! DEFINITION. What holds at every step boundary of every run, in the terms the statements use. -/

namespace Sys2Proof.Machine

/-- `n` steps, stopping where a step answers no next state (R173, step 3; R79). -/
def run : Nat → State → Outcome
  | 0, s => .next s
  | n + 1, s =>
    match step s with
    | .next t => run n t
    | .fault f => .fault f
    | .refused r => .refused r

/-- The fault record is at its reset value (R33). -/
abbrev State.recordClear (s : State) : Prop :=
  s.faultKind = .none ∧ s.faultPc = 0#32 ∧ s.faultInfo = 0#32

/-- `RUN_STATE`, `pc` and the fault record agree: `Running` has `pc < L`, `Halted` has `pc = L`, both with no fault recorded;
`Faulted` has a fault recorded at `pc < L`. The stream is no longer than the host may supply (R30, R32, R33, R143, R172). -/
abbrev State.statusOk (s : State) : Prop :=
  s.program.length ≤ Config.maxProgramLength ∧
  (s.runState = .running → s.pc.toNat < s.program.length ∧ s.recordClear) ∧
  (s.runState = .halted → s.pc.toNat = s.program.length ∧ s.recordClear) ∧
  (s.runState = .faulted → s.pc.toNat < s.program.length ∧ s.faultKind ≠ .none ∧ s.faultPc = s.pc)

/-- The value-range invariant: every register and every cell is below 2^24 (R37). -/
def State.valuesBelow24 (s : State) : Prop :=
  (∀ r : RegIdx, (s.readReg r).toNat < 2 ^ 24) ∧ ∀ a : Nat, (s.readCell a).toNat < 2 ^ 24

/-- The run is over (R32). -/
abbrev State.final (s : State) : Prop := s.runState = .halted ∨ s.runState = .faulted

/-- A step boundary of a run: what every run keeps, from `State.launch` on. -/
def State.inv (s : State) : Prop := s.statusOk ∧ s.mem.wf = true ∧ s.valuesBelow24

/-- A state of a run of a program whose instructions are `is`: the stream is their encodings, of a length the host may supply,
`pc` is right after the encodings of the first few of them, and no decode fault is recorded (R88, R93, R172). -/
def State.runsProgram (is : List Instr) (s : State) : Prop :=
  s.program = is.flatMap encode ∧ s.program.length ≤ Config.maxProgramLength ∧
  (∃ done left, is = done ++ left ∧ s.pc.toNat = (done.flatMap encode).length) ∧
  s.faultKind ≠ .unknownOpcode ∧ s.faultKind ≠ .truncatedInstruction

/-- No register changed from `s` to `t`. -/
def sameRegs (s t : State) : Prop := ∀ r : RegIdx, t.readReg r = s.readReg r

/-- No memory cell changed from `s` to `t`. -/
def sameCells (s t : State) : Prop := ∀ a : Nat, t.readCell a = s.readCell a

/-- The fault record did not change from `s` to `t`. -/
abbrev sameRecord (s t : State) : Prop :=
  t.faultKind = s.faultKind ∧ t.faultPc = s.faultPc ∧ t.faultInfo = s.faultInfo

/-- How an instruction of width `w` ends when it raises nothing: `pc` is past it, `Halted` if that is the end of the stream;
the stream and the fault record are as before (R30, R77). -/
abbrev retiresTo (s t : State) (w : Nat) : Prop :=
  t.program = s.program ∧ t.pc = s.pc + BitVec.ofNat 32 w ∧
  t.runState = (if t.pc.toNat = s.program.length then .halted else s.runState) ∧ sameRecord s t

/-- A fault of this kind ends the run, and no register, no cell, not `pc`, not the stream changed (R140, R144). -/
def raisesFault (s t : State) (kind : FaultKind) : Prop :=
  t.runState = .faulted ∧ t.faultKind = kind ∧ sameRegs s t ∧ sameCells s t ∧ t.pc = s.pc ∧ t.program = s.program

/-- A fault is taken with its whole record: the kind, the `pc` of the faulting instruction and the info (R143). -/
def takesFault (s t : State) (kind : FaultKind) (info : Word) : Prop :=
  raisesFault s t kind ∧ t.faultPc = s.pc ∧ t.faultInfo = info

end Sys2Proof.Machine
end

