-- ==== Sys2Proof/Certificates/Slice0/Obligations.lean ====
section
/-! DEFINITION. The statements for the provers. `R<n>`, `D<n>` and `U<n>` are the spec's; "log <n>" is notes/assumptions/<n>.md. -/

open Sys2Proof Sys2Proof.Machine

/-! ## The four instructions -/

/-- LOAD_CONST always completes (40_load_const.md, ExecLoadConst and its corner cases): the register holds the zero-extended
constant, every other register and every cell is unchanged, and the instruction retires. -/
def Obligations.LoadConstCompletes : Prop :=
  ∀ (rd : RegIdx) (imm24 : Imm24) (s : State), ∃ t, exec (.loadConst rd imm24) s = .next t ∧
    (t.readReg rd).toNat = imm24.toNat ∧ (∀ r, r ≠ rd → t.readReg r = s.readReg r) ∧ sameCells s t ∧ retiresTo s t 5

/-- READ_MEM at a valid address completes (41_memory_access.md, ExecReadMem): the register holds the cell's value, every other
register and every cell is unchanged, and the instruction retires. -/
def Obligations.ReadMemCompletesInBounds : Prop :=
  ∀ (addr : Word) (rd : RegIdx) (s : State), addr.toNat < 1024 → ∃ t, exec (.readMem addr rd) s = .next t ∧
    t.readReg rd = s.readCell addr.toNat ∧ (∀ r, r ≠ rd → t.readReg r = s.readReg r) ∧ sameCells s t ∧ retiresTo s t 6

/-- WRITE_MEM with a valid address in its address register completes (41_memory_access.md, ExecWriteMem): the cell at that
address, read before the write, holds the data register's value; every other cell and every register is unchanged. -/
def Obligations.WriteMemCompletesInBounds : Prop :=
  ∀ (rs raddr : RegIdx) (s : State), s.mem.wf = true → (s.readReg raddr).toNat < 1024 →
    ∃ t, exec (.writeMem rs raddr) s = .next t ∧ t.readCell (s.readReg raddr).toNat = s.readReg rs ∧
      (∀ a, a ≠ (s.readReg raddr).toNat → t.readCell a = s.readCell a) ∧ sameRegs s t ∧ retiresTo s t 2

/-- POPCNT at a valid address completes (42_popcnt.md, ExecPopcnt): the cell and the register both hold the count of the cell's
old value; every other cell and register is unchanged. That the cell is written is D4's choice, the default of the parameter
POPCNT_WRITES_MEM (U2, log 5). -/
def Obligations.PopcntCompletesInBounds : Prop :=
  ∀ (rd : RegIdx) (addr : Word) (s : State), s.mem.wf = true → addr.toNat < 1024 →
    ∃ t, exec (.popcnt rd addr) s = .next t ∧ (t.readReg rd).toNat = popcount (s.readCell addr.toNat) ∧
      (t.readCell addr.toNat).toNat = popcount (s.readCell addr.toNat) ∧ (∀ r, r ≠ rd → t.readReg r = s.readReg r) ∧
      (∀ a, a ≠ addr.toNat → t.readCell a = s.readCell a) ∧ retiresTo s t 6

/-- POPCNT under either value of the parameter POPCNT_WRITES_MEM (U2, log 5): at a valid address the register is written either
way, the cell only under `true`; at an address of 1024 or more both values take MemoryPopcntOutOfBounds with that address. Nothing
else depends on the parameter. -/
def Obligations.PopcntParameterDecidesOnlyTheCell : Prop :=
  ∀ (writesMem : Bool) (rd : RegIdx) (addr : Word) (s : State),
    (s.mem.wf = true → addr.toNat < 1024 →
      ∃ t, popcntWith writesMem rd addr s = .next t ∧ (t.readReg rd).toNat = popcount (s.readCell addr.toNat) ∧
        t.readCell addr.toNat = (if writesMem then t.readReg rd else s.readCell addr.toNat) ∧
        (∀ r, r ≠ rd → t.readReg r = s.readReg r) ∧
        (∀ a, a ≠ addr.toNat → t.readCell a = s.readCell a) ∧ retiresTo s t 6) ∧
    (1024 ≤ addr.toNat →
      ∃ t, popcntWith writesMem rd addr s = .next t ∧ takesFault s t .memoryPopcntOutOfBounds addr)

/-- R49: an address is valid exactly below 1024, and each of the three data accesses with an invalid address raises its own
bounds fault, every register, cell and `pc` unchanged. -/
def Obligations.InvalidAddressFaultsBeforeAnyWrite : Prop :=
  (∀ a : Word, validAddr a = true ↔ a.toNat < 1024) ∧
  (∀ (addr : Word) (rd : RegIdx) (s : State), 1024 ≤ addr.toNat →
    ∃ t, exec (.readMem addr rd) s = .next t ∧ raisesFault s t .memoryReadOutOfBounds) ∧
  (∀ (rs raddr : RegIdx) (s : State), 1024 ≤ (s.readReg raddr).toNat →
    ∃ t, exec (.writeMem rs raddr) s = .next t ∧ raisesFault s t .memoryWriteOutOfBounds) ∧
  (∀ (rd : RegIdx) (addr : Word) (s : State), 1024 ≤ addr.toNat →
    ∃ t, exec (.popcnt rd addr) s = .next t ∧ raisesFault s t .memoryPopcntOutOfBounds)

/-- The fault record (R143; what it holds is D5's choice, log 13): after each bounds fault it holds the kind, the `pc` of the
faulting instruction and the invalid address, and the machine has otherwise not moved. -/
def Obligations.BoundsFaultRecordsKindPcAndAddress : Prop :=
  ∀ (i : Instr) (s t : State) (a : Word), exec i s = .next t → 1024 ≤ a.toNat →
    match i with
    | .loadConst _ _ => t.faultKind = s.faultKind
    | .readMem addr _ => addr = a → takesFault s t .memoryReadOutOfBounds a
    | .writeMem _ raddr => s.readReg raddr = a → takesFault s t .memoryWriteOutOfBounds a
    | .popcnt _ addr => addr = a → takesFault s t .memoryPopcntOutOfBounds a

/-- R142: LOAD_CONST raises no fault when it executes; each other instruction raises its own bounds fault, exactly when its
address is invalid, whatever the register indices; each opcode's tag with too few bytes is a truncated instruction, and no
opcode's tag is an unknown one. -/
def Obligations.EachInstructionRaisesOnlyItsOwnFault : Prop :=
  (∀ (i : Instr) (s : State), s.runState ≠ .faulted → ∃ t, exec i s = .next t ∧
    match i with
    | .loadConst _ _ => t.runState ≠ .faulted
    | .readMem addr _ => (t.runState = .faulted ↔ 1024 ≤ addr.toNat) ∧
        (t.runState = .faulted → t.faultKind = .memoryReadOutOfBounds)
    | .writeMem _ raddr => (t.runState = .faulted ↔ 1024 ≤ (s.readReg raddr).toNat) ∧
        (t.runState = .faulted → t.faultKind = .memoryWriteOutOfBounds)
    | .popcnt _ addr => (t.runState = .faulted ↔ 1024 ≤ addr.toNat) ∧
        (t.runState = .faulted → t.faultKind = .memoryPopcntOutOfBounds)) ∧
  (∀ (op : Op) (first : Byte) (rest : List Byte), tagOf first = op.tag →
    if (first :: rest).length < op.width then decode (first :: rest) = .truncated op.tag (first :: rest).length
    else ∃ i, decode (first :: rest) = .instr i op.width ∧ i.op = op)

/-- What an instruction may write (R23's register table; R46's accesses): a register changes only if it is the destination, a
cell only if it is the one WRITE_MEM or POPCNT addresses. -/
def Obligations.ExecWritesOnlyItsTargets : Prop :=
  ∀ (i : Instr) (s t : State), s.mem.wf = true → exec i s = .next t →
    (∀ r, t.readReg r ≠ s.readReg r →
      match i with
      | .loadConst rd _ => r = rd
      | .readMem _ rd => r = rd
      | .writeMem _ _ => False
      | .popcnt rd _ => r = rd) ∧
    (∀ a, t.readCell a ≠ s.readCell a →
      match i with
      | .loadConst _ _ => False
      | .readMem _ _ => False
      | .writeMem _ raddr => a = (s.readReg raddr).toNat
      | .popcnt _ addr => a = addr.toNat)

/-- What an instruction may read of the register file (R23's table): two states that differ in registers alone, and agree on
WRITE_MEM's two sources, give the same memory, `pc`, status and fault record, and the same value in the destination register. -/
def Obligations.ExecReadsOnlyItsSourceRegisters : Prop :=
  ∀ (i : Instr) (s : State) (x : RegFile),
    (match i with
      | .writeMem rs raddr => s.x[rs.val] = x[rs.val] ∧ s.x[raddr.val] = x[raddr.val]
      | .loadConst _ _ => True
      | .readMem _ _ => True
      | .popcnt _ _ => True) →
    ∃ t u, exec i s = .next t ∧ exec i { s with x := x } = .next u ∧
      u = { t with x := u.x } ∧
      (t.runState ≠ .faulted →
        match i with
        | .loadConst rd _ => t.readReg rd = u.readReg rd
        | .readMem _ rd => t.readReg rd = u.readReg rd
        | .writeMem _ _ => True
        | .popcnt rd _ => t.readReg rd = u.readReg rd)

/-- Memory order (R53, R174): right after a WRITE_MEM that does not fault, a READ_MEM of the same cell gives the value written
and a POPCNT of it counts that value. -/
def Obligations.StoreIsSeenByTheNextAccess : Prop :=
  ∀ (rs raddr rd : RegIdx) (s : State), s.mem.wf = true → (s.readReg raddr).toNat < 1024 →
    ∃ t, exec (.writeMem rs raddr) s = .next t ∧
      (∃ u, exec (.readMem (s.readReg raddr) rd) t = .next u ∧ u.readReg rd = s.readReg rs) ∧
      (∃ u, exec (.popcnt rd (s.readReg raddr)) t = .next u ∧ (u.readReg rd).toNat = popcount (s.readReg rs))

/-- R130: the population count is the sum of the bits, the number of bits that are 1, between 0 and 32, never overflowing a
register, and 0 for 0. -/
def Obligations.PopcountCountsTheOneBits : Prop :=
  ∀ v : Word, popcount v = ∑ i : Fin 32, (v.getLsbD i.val).toNat ∧
    popcount v = (Finset.univ.filter fun i : Fin 32 => v.getLsbD i.val = true).card ∧
    popcount v ≤ 32 ∧ (popcountWord v).toNat = popcount v ∧ popcount 0#32 = 0

/-- The count of a value below 2^24 is at most 24 (R37, R132; the spec derives it). -/
def Obligations.PopcountOfReachableValueIsAtMost24 : Prop :=
  ∀ v : Word, v.toNat < 2 ^ 24 → popcount v ≤ 24

/-- The address translator in hardware form (R50; the spec derives the form): valid exactly when `a[31:10] = 0`, and the cell
selected is then `a[9:0]`, the number `a` itself. -/
def Obligations.AddressTranslationIsTheLowTenBits : Prop :=
  ∀ a : Word, (validAddr a = true ↔ a.extractLsb' 10 22 = 0#22) ∧
    (validAddr a = true → translateAddr a = (a.extractLsb' 0 10).toNat ∧ translateAddr a = a.toNat)

/-! ## From bytes to effect -/

/-- R100: five bytes at `pc` whose tag is 10 load the constant in `I[33:10]` into the register `I[9:7]`, whatever the unused
bits, in one step that raises no fault; with fewer than five bytes the step takes TruncatedInstruction. -/
def Obligations.LoadConstFromBytes : Prop :=
  ∀ (s : State) (b0 : Byte) (tail : List Byte), s.runState = .running →
    s.program.drop s.pc.toNat = b0 :: tail → b0.extractLsb' 0 7 = 10#7 →
    (∀ (b1 b2 b3 b4 : Byte) (rest : List Byte), tail = b1 :: b2 :: b3 :: b4 :: rest →
      ∃ t, step s = .next t ∧
        (∀ r : RegIdx, (t.readReg r).toNat =
          if r.val = (b1.extractLsb' 0 2 ++ b0.extractLsb' 7 1).toNat
          then (b4.extractLsb' 0 2 ++ b3 ++ b2 ++ b1.extractLsb' 2 6).toNat else (s.readReg r).toNat) ∧
        sameCells s t ∧ retiresTo s t 5) ∧
    (tail.length < 4 → ∃ t, step s = .next t ∧ raisesFault s t .truncatedInstruction)

/-- R110: six bytes at `pc` whose tag is 54 copy the cell `I[38:7]` into the register `I[41:39]`, or take MemoryReadOutOfBounds
with the address as info when it is 1024 or more; with fewer than six bytes the step takes TruncatedInstruction. -/
def Obligations.ReadMemFromBytes : Prop :=
  ∀ (s : State) (b0 : Byte) (tail : List Byte), s.runState = .running →
    s.program.drop s.pc.toNat = b0 :: tail → b0.extractLsb' 0 7 = 54#7 →
    (∀ (b1 b2 b3 b4 b5 : Byte) (rest : List Byte) (a : Word), tail = b1 :: b2 :: b3 :: b4 :: b5 :: rest →
      a = b4.extractLsb' 0 7 ++ b3 ++ b2 ++ b1 ++ b0.extractLsb' 7 1 →
      ∃ t, step s = .next t ∧
        if a.toNat < 1024 then
          (∀ r : RegIdx, t.readReg r =
            if r.val = (b5.extractLsb' 0 2 ++ b4.extractLsb' 7 1).toNat then s.readCell a.toNat else s.readReg r) ∧
          sameCells s t ∧ retiresTo s t 6
        else raisesFault s t .memoryReadOutOfBounds ∧ t.faultInfo = a) ∧
    (tail.length < 5 → ∃ t, step s = .next t ∧ raisesFault s t .truncatedInstruction)

/-- R115: two bytes at `pc` whose tag is 39 store the register `I[9:7]` into the cell whose address the register `I[12:10]`
holds, or take MemoryWriteOutOfBounds with that address as info when it is 1024 or more; with one byte the step takes
TruncatedInstruction. -/
def Obligations.WriteMemFromBytes : Prop :=
  ∀ (s : State) (b0 : Byte) (tail : List Byte), s.runState = .running → s.mem.wf = true →
    s.program.drop s.pc.toNat = b0 :: tail → b0.extractLsb' 0 7 = 39#7 →
    (∀ (b1 : Byte) (rest : List Byte) (rs raddr : RegIdx), tail = b1 :: rest →
      rs.val = (b1.extractLsb' 0 2 ++ b0.extractLsb' 7 1).toNat → raddr.val = (b1.extractLsb' 2 3).toNat →
      ∃ t, step s = .next t ∧
        if (s.readReg raddr).toNat < 1024 then
          (∀ a : Nat, t.readCell a = if a = (s.readReg raddr).toNat then s.readReg rs else s.readCell a) ∧
          sameRegs s t ∧ retiresTo s t 2
        else raisesFault s t .memoryWriteOutOfBounds ∧ t.faultInfo = s.readReg raddr) ∧
    (tail = [] → ∃ t, step s = .next t ∧ raisesFault s t .truncatedInstruction)

/-- 42_popcnt.md, from bytes: six bytes at `pc` whose tag is 18 put the count of the cell `I[41:10]` into that cell and into the
register `I[9:7]`, or take MemoryPopcntOutOfBounds; with fewer than six bytes the step takes TruncatedInstruction. That the cell
is written is D4's choice (log 5). -/
def Obligations.PopcntFromBytes : Prop :=
  ∀ (s : State) (b0 : Byte) (tail : List Byte), s.runState = .running → s.mem.wf = true →
    s.program.drop s.pc.toNat = b0 :: tail → b0.extractLsb' 0 7 = 18#7 →
    (∀ (b1 b2 b3 b4 b5 : Byte) (rest : List Byte) (a : Word), tail = b1 :: b2 :: b3 :: b4 :: b5 :: rest →
      a = b5.extractLsb' 0 2 ++ b4 ++ b3 ++ b2 ++ b1.extractLsb' 2 6 →
      ∃ t, step s = .next t ∧
        if a.toNat < 1024 then
          (∀ r : RegIdx, (t.readReg r).toNat =
            if r.val = (b1.extractLsb' 0 2 ++ b0.extractLsb' 7 1).toNat then popcount (s.readCell a.toNat)
            else (s.readReg r).toNat) ∧
          (∀ c : Nat, (t.readCell c).toNat = if c = a.toNat then popcount (s.readCell a.toNat) else (s.readCell c).toNat) ∧
          retiresTo s t 6
        else raisesFault s t .memoryPopcntOutOfBounds ∧ t.faultInfo = a) ∧
    (tail.length < 5 → ∃ t, step s = .next t ∧ raisesFault s t .truncatedInstruction)

/-! ## Decoding and encoding -/

/-- R64, format F-LC byte by byte: B and C lie where the table says, and bits 7..2 of byte 4 do not matter. -/
def Obligations.LoadConstFormat : Prop :=
  ∀ (b0 b1 b2 b3 b4 : Byte) (rest : List Byte), b0.extractLsb' 0 7 = 10#7 →
    decode (b0 :: b1 :: b2 :: b3 :: b4 :: rest) =
      .instr (.loadConst (b1.extractLsb' 0 2 ++ b0.extractLsb' 7 1).toFin
        (b4.extractLsb' 0 2 ++ b3 ++ b2 ++ b1.extractLsb' 2 6)) 5

/-- R65, format F-RM byte by byte: the address is field B, the register field C. -/
def Obligations.ReadMemFormat : Prop :=
  ∀ (b0 b1 b2 b3 b4 b5 : Byte) (rest : List Byte), b0.extractLsb' 0 7 = 54#7 →
    decode (b0 :: b1 :: b2 :: b3 :: b4 :: b5 :: rest) =
      .instr (.readMem (b4.extractLsb' 0 7 ++ b3 ++ b2 ++ b1 ++ b0.extractLsb' 7 1)
        (b5.extractLsb' 0 2 ++ b4.extractLsb' 7 1).toFin) 6

/-- R66, format F-WM byte by byte. -/
def Obligations.WriteMemFormat : Prop :=
  ∀ (b0 b1 : Byte) (rest : List Byte), b0.extractLsb' 0 7 = 39#7 →
    decode (b0 :: b1 :: rest) =
      .instr (.writeMem (b1.extractLsb' 0 2 ++ b0.extractLsb' 7 1).toFin (b1.extractLsb' 2 3).toFin) 2

/-- R67, format F-PC byte by byte. -/
def Obligations.PopcntFormat : Prop :=
  ∀ (b0 b1 b2 b3 b4 b5 : Byte) (rest : List Byte), b0.extractLsb' 0 7 = 18#7 →
    decode (b0 :: b1 :: b2 :: b3 :: b4 :: b5 :: rest) =
      .instr (.popcnt (b1.extractLsb' 0 2 ++ b0.extractLsb' 7 1).toFin
        (b5.extractLsb' 0 2 ++ b4 ++ b3 ++ b2 ++ b1.extractLsb' 2 6)) 6

/-- R62: the instruction integer is the little-endian sum of the bytes, so its bits 8k+7 to 8k are byte k. -/
def Obligations.InstructionIntegerIsLittleEndian : Prop :=
  ∀ bytes : List Byte,
    instrInt bytes = ∑ k : Fin bytes.length, (bytes[k.val].toNat <<< (8 * k.val)) ∧
    ∀ (k : Nat) (h : k < bytes.length), (instrInt bytes >>> (8 * k)) % 2 ^ 8 = bytes[k].toNat

/-- R87: the encoding of an in-range instruction has the table's width, whatever the operands, and is the integer
`A | B << 7 | C << (7 + wB)` written little-endian. -/
def Obligations.EncodingIsTagThenFields : Prop :=
  (∀ (rd : RegIdx) (c : Imm24), (encode (.loadConst rd c)).length = 5 ∧
    instrInt (encode (.loadConst rd c)) = (10 ||| (rd.val <<< 7) ||| (c.toNat <<< 10))) ∧
  (∀ (a : Word) (rd : RegIdx), (encode (.readMem a rd)).length = 6 ∧
    instrInt (encode (.readMem a rd)) = (54 ||| (a.toNat <<< 7) ||| (rd.val <<< 39))) ∧
  (∀ rs raddr : RegIdx, (encode (.writeMem rs raddr)).length = 2 ∧
    instrInt (encode (.writeMem rs raddr)) = (39 ||| (rs.val <<< 7) ||| (raddr.val <<< 10))) ∧
  (∀ (rd : RegIdx) (a : Word), (encode (.popcnt rd a)).length = 6 ∧
    instrInt (encode (.popcnt rd a)) = (18 ||| (rd.val <<< 7) ||| (a.toNat <<< 10)))

/-- Round trip (R93; the spec derives it): every instruction, every operand at every value, followed by any bytes, decodes to
itself with its width. -/
def Obligations.DecodeOfEncodeIsTheInstruction : Prop :=
  ∀ (i : Instr) (rest : List Byte), i.wellFormed = true →
    decode (encode i ++ rest) = .instr i i.width ∧ (encode i).length = i.width

/-- The other direction (R69, R87; the spec derives it): what a decoded instruction encodes to is the bytes it was decoded from
with the unused bits cleared. -/
def Obligations.EncodeOfDecodeClearsUnusedBits : Prop :=
  ∀ (bytes : List Byte) (i : Instr) (w : Nat), decode bytes = .instr i w →
    w = i.width ∧ w ≤ bytes.length ∧
      encode i = bytesLE w (instrInt (bytes.take w) % 2 ^ (7 + i.op.widthB + i.op.widthC))

/-- Unused bits do not matter (R69; the spec derives it in part): two instruction integers that agree below the unused bits, with
a legal tag, decode to the same instruction, and the encoder writes the unused bits as 0. -/
def Obligations.UnusedBitsAreIgnored : Prop :=
  (∀ (op : Op) (I J : Nat) (rest rest' : List Byte), I % 2 ^ 7 = op.tag.toNat →
    I % 2 ^ (7 + op.widthB + op.widthC) = J % 2 ^ (7 + op.widthB + op.widthC) →
    ∃ i, decode (bytesLE op.width I ++ rest) = .instr i op.width ∧ decode (bytesLE op.width J ++ rest') = .instr i op.width) ∧
  (∀ i : Instr, instrInt (encode i) < 2 ^ (7 + i.op.widthB + i.op.widthC))

/-- The decoder reads no byte past the instruction (R75, R76): other bytes after it, or none, decode the same. -/
def Obligations.DecodeReadsOnlyItsOwnBytes : Prop :=
  ∀ (bytes rest : List Byte) (i : Instr) (w : Nat), decode bytes = .instr i w →
    decode (bytes.take w ++ rest) = .instr i w

/-- R72: 124 of the 128 tags are illegal, every tag but 10, 18, 39 and 54; fetching one takes UnknownOpcode with the tag as info;
a legal tag with its W bytes there is always a legal instruction, and a step at a legal tag never takes UnknownOpcode, however
few bytes are left. -/
def Obligations.IllegalTagsAndOnlyThoseAreUnknown : Prop :=
  ((List.range 128).filter fun t => (opOfTag (BitVec.ofNat 7 t)).isNone).length = 124 ∧
  ∀ (s : State) (first : Byte) (rest : List Byte), s.runState = .running →
    s.program.drop s.pc.toNat = first :: rest →
    if (first.extractLsb' 0 7).toNat = 10 ∨ (first.extractLsb' 0 7).toNat = 18 ∨ (first.extractLsb' 0 7).toNat = 39 ∨
        (first.extractLsb' 0 7).toNat = 54 then
      ∃ op : Op, op.tag = first.extractLsb' 0 7 ∧
        (op.width ≤ (first :: rest).length → ∃ i, s.fetch = .instr i op.width ∧ i.op = op) ∧
        ∃ t, step s = .next t ∧ ¬ (t.runState = .faulted ∧ t.faultKind = .unknownOpcode)
    else ∃ t, step s = .next t ∧ takesFault s t .unknownOpcode ((first.extractLsb' 0 7).setWidth 32)

/-- R73: the first byte alone fixes the length. -/
def Obligations.LengthIsFixedByTheFirstByte : Prop :=
  ∀ (first : Byte) (rest : List Byte) (i : Instr) (w : Nat), decode (first :: rest) = .instr i w →
    ((first.extractLsb' 0 7).toNat = 10 ∧ w = 5) ∨ ((first.extractLsb' 0 7).toNat = 54 ∧ w = 6) ∨
    ((first.extractLsb' 0 7).toNat = 39 ∧ w = 2) ∨ ((first.extractLsb' 0 7).toNat = 18 ∧ w = 6)

/-- A truncated instruction (R76; the fault and its info are D3's and D5's choices, log 4): a legal tag with fewer than W bytes
left takes TruncatedInstruction, whose info holds the tag in bits 6..0, the bytes remaining in bits 10..8, and zeros above and
between. -/
def Obligations.TruncatedInstructionIsTaken : Prop :=
  ∀ (s : State) (op : Op) (first : Byte) (rest : List Byte), s.runState = .running →
    s.program.drop s.pc.toNat = first :: rest → first.extractLsb' 0 7 = op.tag → (first :: rest).length < op.width →
    ∃ t info, step s = .next t ∧ takesFault s t .truncatedInstruction info ∧
      info.toNat = op.tag.toNat + 256 * (first :: rest).length ∧ info.extractLsb' 0 7 = op.tag ∧
      (info.extractLsb' 8 3).toNat = (first :: rest).length

/-- Words written out from the spec's encodings decode to their instructions (scenarios 1 to 3 and vectors DC3, PC2). -/
def Obligations.WorkedExamplesDecode : Prop :=
  decode [0x0A, 0xE3, 0x09, 0x00, 0x00] = .instr (.loadConst 6 632) 5 ∧
  decode [0x36, 0xA4, 0x00, 0x00, 0x80, 0x01] = .instr (.readMem 328 3) 6 ∧
  decode [0xA7, 0x14] = .instr (.writeMem 1 5) 2 ∧
  decode [0x8A, 0x00, 0x00, 0x00, 0x00] = .instr (.loadConst 1 0) 5 ∧
  decode [0x12, 0x15, 0x00, 0x00, 0x00, 0x00] = .instr (.popcnt 2 5) 6

/-! ## The step and the run -/

/-- In `Running`, when the bytes at `pc` decode to a (well-formed) instruction, the step is `exec` of it; nothing is added
around it (R77; where RUN_STATE is checked is log 12). -/
def Obligations.StepRunsTheDecodedInstruction : Prop :=
  ∀ (s : State) (i : Instr) (w : Nat), s.runState = .running → s.fetch = .instr i w → i.wellFormed = true →
    step s = exec i s ∧ w = i.width

/-- An encoded instruction anywhere in the stream, at any offset, runs when `pc` is at its first byte (R45, R77, R93). -/
def Obligations.StepRunsAnEncodedInstruction : Prop :=
  ∀ (s : State) (before after : List Byte) (i : Instr), s.runState = .running →
    s.program = before ++ encode i ++ after → s.pc.toNat = before.length → step s = exec i s

/-- The host's fetch word (log 9): what the table-word decoder reads is what the next step runs. -/
def Obligations.FetchWordIsRunNext : Prop :=
  ∀ (s : State) (nbits w : Nat) (i : Instr), decodeTableWord nbits w = some i →
    step (s.withFetchWord nbits w) = exec i (s.withFetchWord nbits w)

/-- No step is defined in a final state (R77, R148): the model's step stops there by name, which is the model's choice of how
(log 6). -/
def Obligations.FinalStatesDoNotStep : Prop :=
  ∀ s : State, (s.runState = .halted → step s = .fault .runHalted) ∧ (s.runState = .faulted → step s = .fault .runFaulted)

/-- A `Running` state whose status is consistent always steps to a next state: the model stops in no run (R75, R77). -/
def Obligations.RunningStateAlwaysSteps : Prop :=
  ∀ s : State, s.statusOk → s.runState = .running → ∃ t, step s = .next t

/-- Every step keeps `RUN_STATE`, `pc`, `L` and the fault record consistent (R30, R32, R33; the spec derives the invariant). -/
def Obligations.StepKeepsStatusConsistent : Prop :=
  ∀ s t : State, s.statusOk → step s = .next t → t.statusOk

/-- Every step keeps the memory's canonical form (the model's form of R26's array, log 1). -/
def Obligations.StepKeepsMemoryCanonical : Prop :=
  ∀ s t : State, s.mem.wf = true → step s = .next t → t.mem.wf = true

/-- Every step keeps every register and every cell below 2^24 (R37; the spec derives it). -/
def Obligations.StepKeepsValuesBelow24Bits : Prop :=
  ∀ s t : State, s.mem.wf = true → s.valuesBelow24 → step s = .next t → t.valuesBelow24

/-- Reset (R170; the status fields' values are D6's choice, the length bound D2's, logs 3, 8 and 13): a launch with any stream
sets every piece of state to its reset value and establishes the invariant; a stream too long is refused; the machine before
any launch is in the invariant too. -/
def Obligations.LaunchResetsAndEstablishesInvariant : Prop :=
  (∀ program : List Byte, program.length ≤ 2 ^ 32 - 1 →
    ∃ s, State.launch program = .next s ∧ s.inv ∧ s.program = program ∧ s.pc = 0#32 ∧ s.recordClear ∧
      (∀ r, s.readReg r = 0#32) ∧ (∀ a, s.readCell a = 0#32) ∧
      (s.runState = if program.length = 0 then .halted else .running)) ∧
  (∀ program : List Byte, 2 ^ 32 - 1 < program.length → State.launch program = .refused .programTooLong) ∧
  State.reset.inv

/-- R22: at engine start every register is 0, so a read of any register gives a defined value at once. -/
def Obligations.RegistersAreZeroAtReset : Prop :=
  (∀ (program : List Byte) (r : RegIdx), (State.resetWith program).readReg r = 0#32) ∧
  ∀ r : RegIdx, State.reset.readReg r = 0#32

/-- Every run ends (R79, R179; the spec derives it): from any consistent state, a final state is reached within
floor((L - pc) / 2) steps that raise nothing and at most one that faults. -/
def Obligations.EveryRunEnds : Prop :=
  ∀ s : State, s.statusOk → ∃ n t, run n s = .next t ∧
    ((t.runState = .halted ∧ n ≤ (s.program.length - s.pc.toNat) / 2) ∨
      (t.runState = .faulted ∧ n ≤ (s.program.length - s.pc.toNat) / 2 + 1))

/-- The program stream never changes (R27, R40, R56; the spec derives the coherence rule). -/
def Obligations.StepNeverWritesTheProgram : Prop :=
  ∀ s t : State, step s = .next t → t.program = s.program

/-- The program counter (R30, R29; the spec derives its bounds): a step that raises nothing moves it past the decoded
instruction, by 2, 5 or 6, without wrapping; a step that faults leaves it. -/
def Obligations.PcAdvancesByTheInstructionWidth : Prop :=
  ∀ s t : State, s.statusOk → step s = .next t →
    (t.runState = .faulted ∧ t.pc = s.pc) ∨
    (t.runState ≠ .faulted ∧ ∃ i w, s.fetch = .instr i w ∧ t.pc.toNat = s.pc.toNat + w ∧
      t.pc.toNat ≤ s.program.length ∧ (w = 2 ∨ w = 5 ∨ w = 6))

/-- R78: a step ends in `Halted` exactly when it succeeds and `pc` is then `L`, `pc` never passes `L`, and reset is `Halted`
exactly when `L = 0`. -/
def Obligations.HaltsExactlyAtTheEndOfTheStream : Prop :=
  (∀ s t : State, s.statusOk → step s = .next t → t.pc.toNat ≤ t.program.length ∧
    (t.runState = .halted ↔ (t.runState ≠ .faulted ∧ t.pc.toNat = t.program.length))) ∧
  ∀ program : List Byte, (State.resetWith program).runState = .halted ↔ program.length = 0

/-- R148: taking a fault saves the fault record and changes `RUN_STATE`, nothing else; a faulted run is never resumed. -/
def Obligations.TakingAFaultChangesOnlyTheRecord : Prop :=
  ∀ s t : State, step s = .next t → t.runState = .faulted →
    t = { s with runState := .faulted, faultKind := t.faultKind, faultPc := t.faultPc, faultInfo := t.faultInfo } ∧
    t.faultKind ≠ .none ∧ ∀ u, step t ≠ .next u

/-- R80: the step depends on the stream, `pc`, the registers and the memory alone; and two runs of one stream that end, end in
the same state. -/
def Obligations.StepDependsOnlyOnProgramPcRegistersMemory : Prop :=
  (∀ (s t s' : State), s.runState = .running → t.runState = .running → s.program = t.program → s.pc = t.pc → s.x = t.x →
    s.mem = t.mem → step s = .next s' →
    ∃ t', step t = .next t' ∧ t'.program = s'.program ∧ t'.pc = s'.pc ∧ t'.x = s'.x ∧ t'.mem = s'.mem ∧
      t'.runState = s'.runState ∧ (s'.runState = .faulted → sameRecord s' t')) ∧
  (∀ (program : List Byte) (n m : Nat) (t u : State), run n (State.resetWith program) = .next t →
    run m (State.resetWith program) = .next u → t.final → u.final → t = u)

/-- The datapath (R74, R101, R111, R116, R132, R175; its organisation is D14's choice, log 15) does exactly what `exec` does:
from the bytes of any decoded instruction, slicing the instruction integer and driving the ports gives the same outcome. -/
def Obligations.DatapathRefinesExec : Prop :=
  ∀ (bytes : List Byte) (i : Instr) (w : Nat) (s : State), decode bytes = .instr i w →
    datapathExecute (decoderOutputs i.op (BitVec.ofNat 48 (instrInt (bytes.take w)))) s = exec i s

/-- The ports each instruction drives (R101, R111, R116, R176, R177; D14, log 15): those of the port-use table when its data
address, if it has one, is valid; with an address of 1024 or more no memory port and not the register write port, while
WRITE_MEM's two register reads and the fetch stay as in the table. -/
def Obligations.PortsDrivenAreTheTablesPorts : Prop :=
  ∀ (op : Op) (I : BitVec 48) (s : State),
    ((∀ a, dataAddress (decoderOutputs op I) s = some a → a.toNat < 1024) →
      portsDriven (decoderOutputs op I) s = portUse op) ∧
    (∀ a, dataAddress (decoderOutputs op I) s = some a → 1024 ≤ a.toNat →
      portsDriven (decoderOutputs op I) s = (portUse op).beforeAccess ∧
      memReadData (decoderOutputs op I) s = none ∧ memWritePort (decoderOutputs op I) s = none ∧
      writeBack (decoderOutputs op I) s = none)

/-! ## The host's side -/

/-- The status fields' codes (R34, R141, R152; the numbers are D5's and D6's): 0 to 2 for RUN_STATE and 0 to 5 for FAULT_KIND, in
the order of the spec's tables; distinct for distinct values, and never the unused codes. -/
def Obligations.StatusCodesAreDistinct : Prop :=
  (RunState.code .running = 0#2 ∧ RunState.code .halted = 1#2 ∧ RunState.code .faulted = 2#2) ∧
  (FaultKind.code .none = 0#3 ∧ FaultKind.code .unknownOpcode = 1#3 ∧ FaultKind.code .truncatedInstruction = 2#3 ∧
    FaultKind.code .memoryReadOutOfBounds = 3#3 ∧ FaultKind.code .memoryWriteOutOfBounds = 4#3 ∧
    FaultKind.code .memoryPopcntOutOfBounds = 5#3) ∧
  (∀ a b : RunState, a.code = b.code → a = b) ∧ (∀ a b : FaultKind, a.code = b.code → a = b) ∧
  (∀ a : RunState, a.code ≠ 3#2) ∧ ∀ a : FaultKind, a.code ≠ 6#3 ∧ a.code ≠ 7#3

/-- The read-out port (R58, R150; the error labels and their order are D7's and D8's choices, log 10): a request that is no pair
of integers, a bad range, no result, or the cells in address order, the first that applies. -/
def Obligations.ReadOutPortAnswersInOrder : Prop :=
  (∀ (s : State) (request : List HostValue), (∀ a b : Int, request ≠ [.int a, .int b]) →
    s.readSlice request = .invalidMemoryRangeFormat) ∧
  (∀ (s : State) (a b : Int), ¬ (0 ≤ a ∧ a ≤ b ∧ b ≤ 1024) → s.readSlice [.int a, .int b] = .memoryRangeOutOfBounds) ∧
  (∀ (s : State) (a b : Int), 0 ≤ a → a ≤ b → b ≤ 1024 → s.runState ≠ .halted → s.readSlice [.int a, .int b] = .noResult) ∧
  (∀ (s : State) (a n : Nat), a + n ≤ 1024 → s.runState = .halted →
    ∃ cells, s.readSlice [.int a, .int (a + n : Nat)] = .ok cells ∧ cells.length = n ∧
      ∀ k, k < n → cells[k]? = some (s.readCell (a + k)))

/-- After a fault only the fault record is observed (R149, R180; D7, log 11): two faulted states with the same record look alike,
whatever their registers and memory, and the port gives no data of either. -/
def Obligations.FaultedStatesShowOnlyTheRecord : Prop :=
  ∀ s t : State, s.runState = .faulted → t.runState = .faulted → sameRecord s t →
    s.observe = t.observe ∧ s.status = t.status ∧ ∀ request, s.readSlice request = t.readSlice request

/-! ## The translator -/

/-- The order of a line's checks (R84): an unknown mnemonic fails before any field check; then field B's range, then field C's;
the first check that fails decides the error. R84 does not place a bad operand token or a wrong number of operands in that order:
that an unknown mnemonic is reported before those is the model's DESIGN CHOICE (log 14), and the first clause says it of every
line. -/
def Obligations.ValidationOrderOfALine : Prop :=
  (∀ (line t : Text) (args : List Text), tokens line = t :: args → t.head? ≠ some '#' → opOfToken t = none →
    translateLine line = .error (.unknownOpcode t)) ∧
  (∀ (line t : Text) (args : List Text) (op : Op) (r : RawInstr), tokens line = t :: args → t.head? ≠ some '#' →
    opOfToken t = some op → parseOperands op args = .ok r →
    (r.bInRange = false → translateLine line = .error (.fieldOutOfRange .b r.b op)) ∧
    (r.bInRange = true → r.cInRange = false → translateLine line = .error (.fieldOutOfRange .c r.c op)) ∧
    (r.bInRange = true → r.cInRange = true → ∃ i, translateLine line = .ok (some i) ∧ i.toRaw = r))

/-- Operand ranges (R85, R93; the spec derives the address range): an instruction encodes exactly when both operands are within
`0 .. 2^width - 1`, one more than the greatest value is refused by naming that field, and the encoding decodes to the operands. -/
def Obligations.EncodesExactlyTheInRangeOperands : Prop :=
  (∀ (op : Op) (b c : Int), 0 ≤ b → b < 2 ^ op.widthB → 0 ≤ c → c < 2 ^ op.widthC →
    ∃ bytes i, encodeRaw ⟨op, b, c⟩ = .ok bytes ∧ bytes.length = op.width ∧ decode bytes = .instr i op.width ∧
      i.toRaw = ⟨op, b, c⟩) ∧
  (∀ (op : Op) (b c : Int), b < 0 ∨ 2 ^ op.widthB ≤ b → encodeRaw ⟨op, b, c⟩ = .error (.fieldOutOfRange .b b op)) ∧
  (∀ (op : Op) (b c : Int), 0 ≤ b → b < 2 ^ op.widthB → c < 0 ∨ 2 ^ op.widthC ≤ c →
    encodeRaw ⟨op, b, c⟩ = .error (.fieldOutOfRange .c c op))

/-- R88: the stream of a program is the encodings of its instruction lines, in line order, with nothing between, before or after;
a skipped line adds nothing. -/
def Obligations.StreamIsTheConcatenatedEncodings : Prop :=
  (∀ (lines : List Text) (bytes : List Byte) (log : List LogRecord), assemble lines = .ok (bytes, log) →
    ∃ is : List (Option Instr), lines.map translateLine = is.map Except.ok ∧ bytes = (is.filterMap id).flatMap encode ∧
      log = (is.filterMap id).map logRecord) ∧
  (∀ (lines more : List Text) (b b' : List Byte) (l l' : List LogRecord), assemble lines = .ok (b, l) →
    assemble more = .ok (b', l') → assemble (lines ++ more) = .ok (b ++ b', l ++ l'))

/-- R90: the first malformed line aborts the whole translation, with that line's error and no output. -/
def Obligations.FirstMalformedLineAborts : Prop :=
  ∀ (good : List Text) (line : Text) (rest : List Text) (out : List Byte × List LogRecord) (e : AsmError),
    assemble good = .ok out → translateLine line = .error e → assemble (good ++ line :: rest) = .error e

/-- A translated program never takes a decode fault (R88, R93; derived): in every state of its run, no UnknownOpcode and no
TruncatedInstruction was recorded. -/
def Obligations.TranslatedProgramsNeverFaultInDecode : Prop :=
  ∀ (lines : List Text) (bytes : List Byte) (log : List LogRecord) (n : Nat) (t : State),
    assemble lines = .ok (bytes, log) → bytes.length ≤ 2 ^ 32 - 1 → run n (State.resetWith bytes) = .next t →
    t.faultKind ≠ .unknownOpcode ∧ t.faultKind ≠ .truncatedInstruction

/-- An invariant that every step keeps (R76, R88, R93; derived): in a run of the encodings of any instructions `pc` stays right
after the encodings of the first few of them, and no step records UnknownOpcode or TruncatedInstruction; reset with that stream
establishes it. -/
def Obligations.StepStaysOnInstructionBoundaries : Prop :=
  (∀ (is : List Instr) (s t : State), s.runsProgram is → step s = .next t → t.runsProgram is) ∧
  ∀ is : List Instr, (is.flatMap encode).length ≤ 2 ^ 32 - 1 → (State.resetWith (is.flatMap encode)).runsProgram is

/-! ## The ports of a step -/

/-- The ports of a step (R75, R144, R175, R177; D14, log 15): a step that executes an instruction uses the ports of its table row; one
that its bounds check ends uses no memory port and not the register write port; one that faults in decode uses no port but the
program fetch, for the tag's one byte. R177 gives no fetch count for such a step: that it is one byte is the model's own inference
(DEDUCED, log 15) from R75, whose decode function reads no byte but the tag's before it raises either fault. -/
def Obligations.StepUsesTheTablesPortsUpToItsFault : Prop :=
  ∀ s t : State, step s = .next t →
    (∀ i w, s.fetch = .instr i w →
      stepPorts s = if t.runState = .faulted then (portUse i.op).beforeAccess else portUse i.op) ∧
    ((∀ i w, s.fetch ≠ .instr i w) → stepPorts s = PortUse.fetchOnly 1)
end

