-- ==== Sys2Proof/Laws/Decode.lean ====
section
/-! SUPPORT. The decoder's and the encoder's small lemmas: tags, widths, bytes and field extraction as arithmetic. -/

namespace Sys2Proof

@[simp] theorem opOfTag_tag (op : Op) : opOfTag op.tag = some op := by
  cases op <;> rfl

/-- The only tags that select an opcode are the opcodes' own. -/
theorem opOfTag_eq_some {t : Tag} {op : Op} : opOfTag t = some op ↔ t = op.tag := by
  constructor
  · intro h
    unfold opOfTag at h
    split_ifs at h with h1 h2 h3 h4 <;> cases h <;> assumption
  · rintro rfl
    exact opOfTag_tag op

theorem opOfTag_eq_none {t : Tag} : opOfTag t = none ↔ ∀ op : Op, t ≠ op.tag := by
  constructor
  · rintro h op rfl
    simp at h
  · intro h
    cases hop : opOfTag t with
    | none => rfl
    | some op => exact absurd (opOfTag_eq_some.1 hop) (h op)

theorem Op.width_pos (op : Op) : 0 < op.width := by
  cases op <;> decide

@[simp] theorem instrInt_nil : instrInt [] = 0 := rfl

@[simp] theorem instrInt_cons (b : Byte) (bs : List Byte) : instrInt (b :: bs) = b.toNat + 256 * instrInt bs := rfl

theorem instrInt_lt (bs : List Byte) : instrInt bs < 256 ^ bs.length := by
  induction bs with
  | nil => simp
  | cons b bs ih =>
    have hb : b.toNat < 256 := b.isLt
    have hp : 256 ^ (b :: bs).length = 256 * 256 ^ bs.length := by
      rw [List.length_cons, Nat.pow_succ, Nat.mul_comm]
    rw [hp, instrInt_cons]
    omega

@[simp] theorem bytesLE_length (n v : Nat) : (bytesLE n v).length = n := by
  induction n generalizing v with
  | zero => rfl
  | succ n ih => simp [bytesLE, ih]

theorem instrInt_bytesLE (n v : Nat) : instrInt (bytesLE n v) = v % 256 ^ n := by
  induction n generalizing v with
  | zero => simp [bytesLE, Nat.mod_one]
  | succ n ih =>
    rw [bytesLE, instrInt_cons, ih, Nat.pow_succ, Nat.mul_comm (256 ^ n), Nat.mod_mul]
    simp

/-- Field B as a quotient and a remainder. -/
theorem fieldB_eq (op : Op) (I : Nat) : fieldB op I = I / 2 ^ 7 % 2 ^ op.widthB := by
  rw [fieldB, Nat.shiftRight_eq_div_pow, Nat.and_two_pow_sub_one_eq_mod]

/-- Field C as a quotient and a remainder. -/
theorem fieldC_eq (op : Op) (I : Nat) : fieldC op I = I / 2 ^ (7 + op.widthB) % 2 ^ op.widthC := by
  rw [fieldC, Nat.shiftRight_eq_div_pow, Nat.and_two_pow_sub_one_eq_mod]

/-- An instruction is its opcode with its two field values. -/
@[simp] theorem instrOfFields_fields (i : Instr) : instrOfFields i.op i.fieldB i.fieldC = i := by
  cases i <;> simp [Instr.op, Instr.fieldB, Instr.fieldC, instrOfFields]

@[simp] theorem instrOfFields_op (op : Op) (b c : Nat) : (instrOfFields op b c).op = op := by
  cases op <;> rfl

@[simp] theorem instrOfInt_op (op : Op) (I : Nat) : (instrOfInt op I).op = op := instrOfFields_op op _ _

/-- Everything the decoder can answer on a first byte and the bytes after it. -/
theorem decode_cons (first : Byte) (rest : List Byte) :
    (opOfTag (tagOf first) = none ∧ decode (first :: rest) = .unknownOpcode (tagOf first)) ∨
    (∃ op : Op, tagOf first = op.tag ∧ (first :: rest).length < op.width ∧
      decode (first :: rest) = .truncated (tagOf first) (first :: rest).length) ∨
    (∃ op : Op, tagOf first = op.tag ∧ op.width ≤ (first :: rest).length ∧
      decode (first :: rest) = .instr (instrOfInt op (instrInt ((first :: rest).take op.width))) op.width) := by
  cases hop : opOfTag (tagOf first) with
  | none => exact .inl ⟨rfl, by simp [decode, hop]⟩
  | some op =>
    have ht := opOfTag_eq_some.1 hop
    by_cases hl : (first :: rest).length < op.width
    · exact .inr (.inl ⟨op, ht, hl, by simp only [decode, hop, if_pos hl]⟩)
    · exact .inr (.inr ⟨op, ht, Nat.le_of_not_lt hl, by simp only [decode, hop, if_neg hl]⟩)

/-- What a decoded instruction says about the bytes it was decoded from. -/
theorem decode_eq_instr {bytes : List Byte} {i : Instr} {w : Nat} (h : decode bytes = .instr i w) :
    ∃ (first : Byte) (rest : List Byte) (op : Op), bytes = first :: rest ∧ tagOf first = op.tag ∧ w = op.width ∧ w ≤ bytes.length ∧ i.op = op ∧
      i = instrOfInt op (instrInt (bytes.take w)) := by
  cases bytes with
  | nil => simp [decode] at h
  | cons first rest =>
    rcases decode_cons first rest with ⟨_, hd⟩ | ⟨op, _, _, hd⟩ | ⟨op, ht, hl, hd⟩
    · simp [hd] at h
    · simp [hd] at h
    · obtain ⟨rfl, rfl⟩ : instrOfInt op (instrInt ((first :: rest).take op.width)) = i ∧ op.width = w := by
        simpa [hd] using h
      exact ⟨first, rest, op, rfl, ht, rfl, hl, instrOfInt_op op _, rfl⟩

end Sys2Proof
end

