-- ==== Sys2Proof/Laws/State.lean ====
section
/-! SUPPORT. One lemma per field of State per update, each true by definition, and what reads see after each update. -/

namespace Sys2Proof.Machine

@[simp] theorem State.writeReg_x (s : State) (r : RegIdx) (v : Word) :
    (s.writeReg r v).x = s.x.set r.val v := rfl
@[simp] theorem State.writeReg_mem (s : State) (r : RegIdx) (v : Word) :
    (s.writeReg r v).mem = s.mem := rfl
@[simp] theorem State.writeReg_program (s : State) (r : RegIdx) (v : Word) :
    (s.writeReg r v).program = s.program := rfl
@[simp] theorem State.writeReg_pc (s : State) (r : RegIdx) (v : Word) :
    (s.writeReg r v).pc = s.pc := rfl
@[simp] theorem State.writeReg_runState (s : State) (r : RegIdx) (v : Word) :
    (s.writeReg r v).runState = s.runState := rfl
@[simp] theorem State.writeReg_faultKind (s : State) (r : RegIdx) (v : Word) :
    (s.writeReg r v).faultKind = s.faultKind := rfl
@[simp] theorem State.writeReg_faultPc (s : State) (r : RegIdx) (v : Word) :
    (s.writeReg r v).faultPc = s.faultPc := rfl
@[simp] theorem State.writeReg_faultInfo (s : State) (r : RegIdx) (v : Word) :
    (s.writeReg r v).faultInfo = s.faultInfo := rfl

@[simp] theorem State.writeCell_x (s : State) (a : Nat) (v : Word) :
    (s.writeCell a v).x = s.x := rfl
@[simp] theorem State.writeCell_mem (s : State) (a : Nat) (v : Word) :
    (s.writeCell a v).mem = Memory.write s.mem a v := rfl
@[simp] theorem State.writeCell_program (s : State) (a : Nat) (v : Word) :
    (s.writeCell a v).program = s.program := rfl
@[simp] theorem State.writeCell_pc (s : State) (a : Nat) (v : Word) :
    (s.writeCell a v).pc = s.pc := rfl
@[simp] theorem State.writeCell_runState (s : State) (a : Nat) (v : Word) :
    (s.writeCell a v).runState = s.runState := rfl
@[simp] theorem State.writeCell_faultKind (s : State) (a : Nat) (v : Word) :
    (s.writeCell a v).faultKind = s.faultKind := rfl
@[simp] theorem State.writeCell_faultPc (s : State) (a : Nat) (v : Word) :
    (s.writeCell a v).faultPc = s.faultPc := rfl
@[simp] theorem State.writeCell_faultInfo (s : State) (a : Nat) (v : Word) :
    (s.writeCell a v).faultInfo = s.faultInfo := rfl

@[simp] theorem State.raiseFault_x (s : State) (k : FaultKind) (info : Word) :
    (s.raiseFault k info).x = s.x := rfl
@[simp] theorem State.raiseFault_mem (s : State) (k : FaultKind) (info : Word) :
    (s.raiseFault k info).mem = s.mem := rfl
@[simp] theorem State.raiseFault_program (s : State) (k : FaultKind) (info : Word) :
    (s.raiseFault k info).program = s.program := rfl
@[simp] theorem State.raiseFault_pc (s : State) (k : FaultKind) (info : Word) :
    (s.raiseFault k info).pc = s.pc := rfl
@[simp] theorem State.raiseFault_runState (s : State) (k : FaultKind) (info : Word) :
    (s.raiseFault k info).runState = .faulted := rfl
@[simp] theorem State.raiseFault_faultKind (s : State) (k : FaultKind) (info : Word) :
    (s.raiseFault k info).faultKind = k := rfl
@[simp] theorem State.raiseFault_faultPc (s : State) (k : FaultKind) (info : Word) :
    (s.raiseFault k info).faultPc = s.pc := rfl
@[simp] theorem State.raiseFault_faultInfo (s : State) (k : FaultKind) (info : Word) :
    (s.raiseFault k info).faultInfo = info := rfl

@[simp] theorem State.retire_x (s : State) (w : Nat) :
    (s.retire w).x = s.x := rfl
@[simp] theorem State.retire_mem (s : State) (w : Nat) :
    (s.retire w).mem = s.mem := rfl
@[simp] theorem State.retire_program (s : State) (w : Nat) :
    (s.retire w).program = s.program := rfl
@[simp] theorem State.retire_pc (s : State) (w : Nat) :
    (s.retire w).pc = s.pc + BitVec.ofNat 32 w := rfl
@[simp] theorem State.retire_runState (s : State) (w : Nat) :
    (s.retire w).runState = if (s.pc + BitVec.ofNat 32 w).toNat = s.program.length then .halted else s.runState := rfl
@[simp] theorem State.retire_faultKind (s : State) (w : Nat) :
    (s.retire w).faultKind = s.faultKind := rfl
@[simp] theorem State.retire_faultPc (s : State) (w : Nat) :
    (s.retire w).faultPc = s.faultPc := rfl
@[simp] theorem State.retire_faultInfo (s : State) (w : Nat) :
    (s.retire w).faultInfo = s.faultInfo := rfl

/-! Reset with a stream (R170). -/

@[simp] theorem State.resetWith_x (p : List Byte) :
    (State.resetWith p).x = Vector.replicate 8 0#32 := rfl
@[simp] theorem State.resetWith_mem (p : List Byte) :
    (State.resetWith p).mem = [] := rfl
@[simp] theorem State.resetWith_program (p : List Byte) :
    (State.resetWith p).program = p := rfl
@[simp] theorem State.resetWith_pc (p : List Byte) :
    (State.resetWith p).pc = 0#32 := rfl
@[simp] theorem State.resetWith_runState (p : List Byte) :
    (State.resetWith p).runState = if p.length = 0 then .halted else .running := rfl
@[simp] theorem State.resetWith_faultKind (p : List Byte) :
    (State.resetWith p).faultKind = .none := rfl
@[simp] theorem State.resetWith_faultPc (p : List Byte) :
    (State.resetWith p).faultPc = 0#32 := rfl
@[simp] theorem State.resetWith_faultInfo (p : List Byte) :
    (State.resetWith p).faultInfo = 0#32 := rfl

/-! Placing an instruction for the next step. -/

@[simp] theorem State.withFetchWord_x (s : State) (nbits w : Nat) :
    (s.withFetchWord nbits w).x = s.x := rfl
@[simp] theorem State.withFetchWord_mem (s : State) (nbits w : Nat) :
    (s.withFetchWord nbits w).mem = s.mem := rfl
@[simp] theorem State.withFetchWord_program (s : State) (nbits w : Nat) :
    (s.withFetchWord nbits w).program = placeBytes s.program s.pc.toNat (tableWordBytes nbits w) := rfl
@[simp] theorem State.withFetchWord_pc (s : State) (nbits w : Nat) :
    (s.withFetchWord nbits w).pc = s.pc := rfl
@[simp] theorem State.withFetchWord_runState (s : State) (nbits w : Nat) :
    (s.withFetchWord nbits w).runState = .running := rfl
@[simp] theorem State.withFetchWord_faultKind (s : State) (nbits w : Nat) :
    (s.withFetchWord nbits w).faultKind = s.faultKind := rfl
@[simp] theorem State.withFetchWord_faultPc (s : State) (nbits w : Nat) :
    (s.withFetchWord nbits w).faultPc = s.faultPc := rfl
@[simp] theorem State.withFetchWord_faultInfo (s : State) (nbits w : Nat) :
    (s.withFetchWord nbits w).faultInfo = s.faultInfo := rfl

/-! What register and cell reads see after each update. -/

theorem State.readReg_writeReg (s : State) (r q : RegIdx) (v : Word) :
    (s.writeReg r v).readReg q = if q = r then v else s.readReg q := by
  simp only [State.readReg, State.writeReg_x, Vector.getElem_set, Fin.ext_iff, eq_comm (a := q.val)]

@[simp] theorem State.readReg_writeReg_same (s : State) (r : RegIdx) (v : Word) :
    (s.writeReg r v).readReg r = v := by
  simp [State.readReg_writeReg]

theorem State.readReg_writeReg_other (s : State) (r q : RegIdx) (v : Word) (h : q ≠ r) :
    (s.writeReg r v).readReg q = s.readReg q := by
  simp [State.readReg_writeReg, h]

@[simp] theorem State.readReg_writeCell (s : State) (a : Nat) (v : Word) (q : RegIdx) :
    (s.writeCell a v).readReg q = s.readReg q := rfl
@[simp] theorem State.readReg_raiseFault (s : State) (k : FaultKind) (info : Word) (q : RegIdx) :
    (s.raiseFault k info).readReg q = s.readReg q := rfl
@[simp] theorem State.readReg_retire (s : State) (w : Nat) (q : RegIdx) :
    (s.retire w).readReg q = s.readReg q := rfl
@[simp] theorem State.readCell_writeReg (s : State) (r : RegIdx) (v : Word) (c : Nat) :
    (s.writeReg r v).readCell c = s.readCell c := rfl
@[simp] theorem State.readCell_raiseFault (s : State) (k : FaultKind) (info : Word) (c : Nat) :
    (s.raiseFault k info).readCell c = s.readCell c := rfl
@[simp] theorem State.readCell_retire (s : State) (w : Nat) (c : Nat) :
    (s.retire w).readCell c = s.readCell c := rfl

@[simp] theorem State.readReg_resetWith (p : List Byte) (r : RegIdx) : (State.resetWith p).readReg r = 0#32 := by
  simp [State.readReg]

@[simp] theorem State.readCell_resetWith (p : List Byte) (a : Nat) : (State.resetWith p).readCell a = 0#32 := rfl

end Sys2Proof.Machine
end

