-- ==== Sys2Proof/Laws/Memory.lean ====
section
/-! SUPPORT. The data memory's laws: what a read sees after a write, and that a write keeps the canonical form. -/

namespace Sys2Proof.Machine

@[simp] theorem Memory.read_nil (a : Nat) : Memory.read [] a = 0#32 := rfl

theorem Memory.read_cons (b : Nat) (w : Word) (m : Memory) (a : Nat) :
    Memory.read ((b, w) :: m) a = if a = b then w else Memory.read m a := rfl

theorem Memory.wfFrom_cons (lo a : Nat) (v : Word) (m : Memory) :
    Memory.wfFrom lo ((a, v) :: m) = true ↔
      lo ≤ a ∧ a < 1024 ∧ v ≠ 0#32 ∧ Memory.wfFrom (a + 1) m = true := by
  simp [Memory.wfFrom, and_assoc]

theorem Memory.wfFrom_mono {lo lo' : Nat} (h : lo ≤ lo') {m : Memory} (hm : Memory.wfFrom lo' m = true) :
    Memory.wfFrom lo m = true := by
  cases m with
  | nil => rfl
  | cons c m =>
    obtain ⟨a, v⟩ := c
    rw [Memory.wfFrom_cons] at hm ⊢
    exact ⟨h.trans hm.1, hm.2⟩

/-- Below its lower bound a canonical memory reads 0. -/
theorem Memory.read_below {lo a : Nat} {m : Memory} (hm : Memory.wfFrom lo m = true) (h : a < lo) :
    Memory.read m a = 0#32 := by
  induction m generalizing lo with
  | nil => rfl
  | cons c m ih =>
    obtain ⟨b, w⟩ := c
    rw [Memory.wfFrom_cons] at hm
    rw [Memory.read_cons, if_neg (by omega)]
    exact ih hm.2.2.2 (by omega)

/-- A write keeps the canonical form. -/
theorem Memory.write_wfFrom {lo a : Nat} (v : Word) {m : Memory} (hm : Memory.wfFrom lo m = true) (hlo : lo ≤ a)
    (ha : a < 1024) : Memory.wfFrom lo (Memory.write m a v) = true := by
  induction m generalizing lo with
  | nil =>
    by_cases hv : v = 0#32
    · simp [Memory.write, hv, Memory.wfFrom]
    · simp [Memory.write, hv, Memory.wfFrom, hlo, ha]
  | cons c m ih =>
    obtain ⟨b, w⟩ := c
    have hc := (Memory.wfFrom_cons lo b w m).1 hm
    unfold Memory.write
    split_ifs with h1 h2 h3 h4
    · exact hm
    · rw [Memory.wfFrom_cons, Memory.wfFrom_cons]
      exact ⟨hlo, ha, h2, by omega, hc.2⟩
    · exact Memory.wfFrom_mono (by omega) hc.2.2.2
    · subst h3
      exact (Memory.wfFrom_cons lo a v m).2 ⟨hlo, ha, h4, hc.2.2.2⟩
    · exact (Memory.wfFrom_cons lo b w _).2 ⟨hc.1, hc.2.1, hc.2.2.1, ih hc.2.2.2 (by omega)⟩

theorem Memory.write_wf {a : Nat} (v : Word) {m : Memory} (hm : Memory.wf m = true) (ha : a < 1024) :
    Memory.wf (Memory.write m a v) = true :=
  Memory.write_wfFrom v hm (Nat.zero_le a) ha

/-- In a canonical memory a read after a write gives the value written, and every other cell as before. -/
theorem Memory.read_write_from {lo a : Nat} (v : Word) {m : Memory} (hm : Memory.wfFrom lo m = true) (c : Nat) :
    Memory.read (Memory.write m a v) c = if c = a then v else Memory.read m c := by
  induction m generalizing lo with
  | nil =>
    by_cases hv : v = 0#32
    · simp [Memory.write, hv]
    · simp [Memory.write, hv, Memory.read_cons]
  | cons e m ih =>
    obtain ⟨b, w⟩ := e
    have hc := (Memory.wfFrom_cons lo b w m).1 hm
    rcases Nat.lt_trichotomy a b with hab | hab | hab
    · have hz : Memory.read ((b, w) :: m) a = 0#32 :=
        Memory.read_below ((Memory.wfFrom_cons (a + 1) b w m).2 ⟨by omega, hc.2⟩) (by omega)
      by_cases hv : v = 0#32 <;> by_cases hca : c = a <;> simp [Memory.write, hab, hv, hca, hz, Memory.read_cons]
    · subst hab
      have hz : Memory.read m a = 0#32 := Memory.read_below hc.2.2.2 (by omega)
      by_cases hv : v = 0#32 <;> by_cases hca : c = a <;> simp [Memory.write, hv, hca, hz, Memory.read_cons]
    · have hw : Memory.write ((b, w) :: m) a v = (b, w) :: Memory.write m a v := by
        simp [Memory.write, show ¬ a < b by omega, show a ≠ b by omega]
      rw [hw, Memory.read_cons, Memory.read_cons, ih hc.2.2.2]
      by_cases hcb : c = b
      · simp [hcb, show b ≠ a by omega]
      · simp [hcb]

theorem Memory.read_write {a : Nat} (v : Word) {m : Memory} (hm : Memory.wf m = true) (c : Nat) :
    Memory.read (Memory.write m a v) c = if c = a then v else Memory.read m c :=
  Memory.read_write_from v hm c

theorem State.readCell_writeCell {s : State} (hm : s.mem.wf = true) (a : Nat) (v : Word) (c : Nat) :
    (s.writeCell a v).readCell c = if c = a then v else s.readCell c :=
  Memory.read_write v hm c

theorem State.writeCell_wf {s : State} (hm : s.mem.wf = true) {a : Nat} (ha : a < 1024) (v : Word) :
    (s.writeCell a v).mem.wf = true :=
  Memory.write_wf v hm ha

/-- Reset memory is canonical. -/
theorem State.reset_mem_wf : State.reset.mem.wf = true := rfl

end Sys2Proof.Machine
end

