-- ==== Sys2Proof/Laws/Step.lean ====
section
/-! SUPPORT. Everything each shared operation, each meaning and the step can do, said once. -/

namespace Sys2Proof.Machine

theorem validAddr_iff (a : Word) : validAddr a = true ↔ a.toNat < 1024 := by
  simp [validAddr]

theorem checkedAccess_of_lt {a : Word} (h : a.toNat < 1024) (k : FaultKind) (s : State) (f : Nat → State) :
    checkedAccess k a s f = .next (f a.toNat) := by
  simp [checkedAccess, (validAddr_iff a).2 h, translateAddr]

theorem checkedAccess_of_ge {a : Word} (h : 1024 ≤ a.toNat) (k : FaultKind) (s : State) (f : Nat → State) :
    checkedAccess k a s f = .next (s.raiseFault k a) := by
  have hv : validAddr a = false := by simp [validAddr]; omega
  simp [checkedAccess, hv]

/-- A checked access answers a next state: the effect on a valid address, the fault on any other. -/
theorem checkedAccess_cases (k : FaultKind) (a : Word) (s : State) (f : Nat → State) :
    (a.toNat < 1024 ∧ checkedAccess k a s f = .next (f a.toNat)) ∨
      (1024 ≤ a.toNat ∧ checkedAccess k a s f = .next (s.raiseFault k a)) := by
  rcases Nat.lt_or_ge a.toNat 1024 with h | h
  · exact .inl ⟨h, checkedAccess_of_lt h k s f⟩
  · exact .inr ⟨h, checkedAccess_of_ge h k s f⟩

/-- LOAD_CONST has one case (R100). -/
theorem exec_loadConst (rd : RegIdx) (c : Imm24) (s : State) :
    exec (.loadConst rd c) s = .next ((s.writeReg rd (zext32 c)).retire 5) := rfl

/-- READ_MEM's two cases (R110). -/
theorem exec_readMem_cases (a : Word) (rd : RegIdx) (s : State) :
    (a.toNat < 1024 ∧ exec (.readMem a rd) s = .next ((s.writeReg rd (s.readCell a.toNat)).retire 6)) ∨
      (1024 ≤ a.toNat ∧ exec (.readMem a rd) s = .next (s.raiseFault .memoryReadOutOfBounds a)) :=
  checkedAccess_cases .memoryReadOutOfBounds a s fun n => (s.writeReg rd (s.readCell n)).retire 6

/-- WRITE_MEM's two cases (R115). -/
theorem exec_writeMem_cases (rs raddr : RegIdx) (s : State) :
    ((s.readReg raddr).toNat < 1024 ∧
        exec (.writeMem rs raddr) s = .next ((s.writeCell (s.readReg raddr).toNat (s.readReg rs)).retire 2)) ∨
      (1024 ≤ (s.readReg raddr).toNat ∧
        exec (.writeMem rs raddr) s = .next (s.raiseFault .memoryWriteOutOfBounds (s.readReg raddr))) :=
  checkedAccess_cases .memoryWriteOutOfBounds (s.readReg raddr) s fun n => (s.writeCell n (s.readReg rs)).retire 2

/-- POPCNT's two cases (R131). -/
theorem exec_popcnt_cases (rd : RegIdx) (a : Word) (s : State) :
    (a.toNat < 1024 ∧
        exec (.popcnt rd a) s =
          .next (((s.writeCell a.toNat (popcountWord (s.readCell a.toNat))).writeReg rd
            (popcountWord (s.readCell a.toNat))).retire 6)) ∨
      (1024 ≤ a.toNat ∧ exec (.popcnt rd a) s = .next (s.raiseFault .memoryPopcntOutOfBounds a)) :=
  checkedAccess_cases .memoryPopcntOutOfBounds a s fun n =>
    ((s.writeCell n (popcountWord (s.readCell n))).writeReg rd (popcountWord (s.readCell n))).retire 6

/-- What every meaning can do to the control state: it retires, or it takes one bounds fault and changes nothing else. -/
theorem exec_next_cases {i : Instr} {s t : State} (h : exec i s = .next t) :
    (∃ u : State, t = u.retire i.width ∧ u.program = s.program ∧ u.pc = s.pc ∧ u.runState = s.runState ∧ sameRecord s u) ∨
      (∃ k a, k ≠ FaultKind.none ∧ k ≠ .unknownOpcode ∧ k ≠ .truncatedInstruction ∧ t = s.raiseFault k a) := by
  cases i with
  | loadConst rd c => exact .inl ⟨_, (Host.Outcome.next.inj h).symm, rfl, rfl, rfl, rfl, rfl, rfl⟩
  | readMem a rd =>
    rcases exec_readMem_cases a rd s with ⟨_, e⟩ | ⟨_, e⟩ <;> (rw [e] at h; obtain rfl := Host.Outcome.next.inj h)
    · exact .inl ⟨_, rfl, rfl, rfl, rfl, rfl, rfl, rfl⟩
    · exact .inr ⟨_, _, by decide, by decide, by decide, rfl⟩
  | writeMem rs raddr =>
    rcases exec_writeMem_cases rs raddr s with ⟨_, e⟩ | ⟨_, e⟩ <;> (rw [e] at h; obtain rfl := Host.Outcome.next.inj h)
    · exact .inl ⟨_, rfl, rfl, rfl, rfl, rfl, rfl, rfl⟩
    · exact .inr ⟨_, _, by decide, by decide, by decide, rfl⟩
  | popcnt rd a =>
    rcases exec_popcnt_cases rd a s with ⟨_, e⟩ | ⟨_, e⟩ <;> (rw [e] at h; obtain rfl := Host.Outcome.next.inj h)
    · exact .inl ⟨_, rfl, rfl, rfl, rfl, rfl, rfl, rfl⟩
    · exact .inr ⟨_, _, by decide, by decide, by decide, rfl⟩

/-- The ways a step can answer a next state: an instruction executes, or a decode fault is taken; always from `Running`. -/
theorem step_cases {s t : State} (h : step s = .next t) :
    s.runState = .running ∧
      ((∃ i w, s.fetch = .instr i w ∧ exec i s = .next t) ∨
        (∃ tag, s.fetch = .unknownOpcode tag ∧ t = s.raiseFault .unknownOpcode (tag.setWidth 32)) ∨
        (∃ tag n, s.fetch = .truncated tag n ∧ t = s.raiseFault .truncatedInstruction (truncatedInfo tag n))) := by
  unfold step instructionCycle at h
  cases hr : s.runState <;> rw [hr] at h
  · refine ⟨rfl, ?_⟩
    cases hf : s.fetch <;> rw [hf] at h
    · exact .inl ⟨_, _, rfl, h⟩
    · exact .inr (.inl ⟨_, rfl, by simpa using h.symm⟩)
    · exact .inr (.inr ⟨_, _, rfl, by simpa using h.symm⟩)
    · cases h
  · cases h
  · cases h

/-- In `Running`, a fetched instruction is executed. -/
theorem step_of_fetch_instr {s : State} {i : Instr} {w : Nat} (h : s.runState = .running) (hf : s.fetch = .instr i w) :
    step s = exec i s := by
  simp only [step, instructionCycle, h, hf]

/-- In `Running`, an illegal tag is taken as a fault. -/
theorem step_of_fetch_unknown {s : State} {tag : Tag} (h : s.runState = .running) (hf : s.fetch = .unknownOpcode tag) :
    step s = .next (s.raiseFault .unknownOpcode (tag.setWidth 32)) := by
  simp only [step, instructionCycle, h, hf]

/-- In `Running`, a truncated instruction is taken as a fault. -/
theorem step_of_fetch_truncated {s : State} {tag : Tag} {n : Nat} (h : s.runState = .running)
    (hf : s.fetch = .truncated tag n) :
    step s = .next (s.raiseFault .truncatedInstruction (truncatedInfo tag n)) := by
  simp only [step, instructionCycle, h, hf]

/-- A fetched instruction's width bounds the bytes that remain. -/
theorem fetch_instr_width {s : State} {i : Instr} {w : Nat} (h : s.fetch = .instr i w) :
    w = i.width ∧ s.pc.toNat + w ≤ s.program.length := by
  obtain ⟨first, rest, op, _, _, hw, hl, hop, _⟩ := decode_eq_instr h
  have hpos := op.width_pos
  rw [List.length_drop] at hl
  exact ⟨by rw [hw, Instr.width, hop], by omega⟩

theorem run_zero (s : State) : run 0 s = .next s := rfl

theorem run_succ_of_next {s t : State} (h : step s = .next t) (n : Nat) : run (n + 1) s = run n t := by
  simp only [run, h]

/-- `run` is the host's run of the model's machine. -/
theorem run_eq_host_run (n : Nat) (s : State) : run n s = Host.Core.run Sys2Proof.core n s := by
  induction n generalizing s with
  | zero => rfl
  | succ n ih =>
    cases h : step s with
    | next t =>
      have hc : Sys2Proof.core.step s = .next t := h
      rw [run_succ_of_next h, ih]
      simp only [Host.Core.run, hc]
      rfl
    | fault f =>
      have hc : Sys2Proof.core.step s = .fault f := h
      simp only [run, h, Host.Core.run, hc]
      rfl
    | refused r =>
      have hc : Sys2Proof.core.step s = .refused r := h
      simp only [run, h, Host.Core.run, hc]
      rfl

end Sys2Proof.Machine
end

