-- ==== Sys2Proof/Laws/Datapath.lean ====
section
/-! SUPPORT. The datapath's bounds check and cell selection in the meanings' terms, and what a failed check turns off. -/

namespace Sys2Proof.Machine

/-- The hardware bounds check is `a < 1024` (R50). -/
theorem addressInBounds_iff (a : Word) : addressInBounds a = true ↔ a.toNat < 1024 := by
  have h : (a.extractLsb' 10 22).toNat = a.toNat / 1024 := by
    have := a.isLt
    simp only [BitVec.extractLsb'_toNat, Nat.shiftRight_eq_div_pow]
    omega
  rw [addressInBounds, decide_eq_true_iff, ← BitVec.toNat_inj, h, BitVec.toNat_ofNat]
  omega

/-- At a valid address the low ten bits are the address (R50). -/
theorem cellIndex_of_lt {a : Word} (h : a.toNat < 1024) : cellIndex a = a.toNat := by
  rw [cellIndex, BitVec.extractLsb'_toNat, Nat.shiftRight_zero]
  exact Nat.mod_eq_of_lt h

/-- The translator's three cases: no data address, a valid one, an invalid one. -/
theorem selectedCell_cases (g : Signals) (s : State) :
    (dataAddress g s = none ∧ selectedCell g s = none) ∨
      (∃ a, dataAddress g s = some a ∧ a.toNat < 1024 ∧ selectedCell g s = some a.toNat) ∨
      (∃ a, dataAddress g s = some a ∧ 1024 ≤ a.toNat ∧ selectedCell g s = none) := by
  unfold selectedCell
  cases h : dataAddress g s with
  | none => exact .inl ⟨rfl, rfl⟩
  | some a =>
    rcases Nat.lt_or_ge a.toNat 1024 with hlt | hge
    · exact .inr (.inl ⟨a, rfl, hlt, by simp only [(addressInBounds_iff a).2 hlt, if_true, cellIndex_of_lt hlt]⟩)
    · have hb : addressInBounds a = false := by rw [Bool.eq_false_iff, ne_eq, addressInBounds_iff]; omega
      exact .inr (.inr ⟨a, rfl, hge, by simp only [hb, Bool.false_eq_true, if_false]⟩)

theorem selectedCell_of_ge {g : Signals} {s : State} {a : Word} (h : dataAddress g s = some a) (ha : 1024 ≤ a.toNat) :
    selectedCell g s = none := by
  rcases selectedCell_cases g s with ⟨h', _⟩ | ⟨b, h', hb, _⟩ | ⟨_, _, _, e⟩
  · rw [h] at h'; cases h'
  · rw [h] at h'; cases h'; omega
  · exact e

theorem selectedCell_of_lt {g : Signals} {s : State} {a : Word} (h : dataAddress g s = some a) (ha : a.toNat < 1024) :
    selectedCell g s = some a.toNat := by
  rcases selectedCell_cases g s with ⟨h', _⟩ | ⟨b, h', _, e⟩ | ⟨b, h', hb, _⟩
  · rw [h] at h'; cases h'
  · rw [h] at h'; cases h'; exact e
  · rw [h] at h'; cases h'; omega

/-- Without a selected cell the memory read port is off (R111). -/
theorem memReadData_of_selectedCell_none {g : Signals} {s : State} (h : selectedCell g s = none) : memReadData g s = none := by
  unfold memReadData
  rw [h]
  cases g.op <;> rfl

/-- Without a selected cell the memory write port is off (R116). -/
theorem memWritePort_of_selectedCell_none {g : Signals} {s : State} (h : selectedCell g s = none) :
    memWritePort g s = none := by
  unfold memWritePort
  rw [h]
  cases g.op <;> rfl

@[simp] theorem State.drive_none (s : State) : s.drive none = s := rfl
@[simp] theorem State.drive_some (s : State) (a : Nat) (v : Word) : s.drive (some (a, v)) = s.writeCell a v := rfl
@[simp] theorem State.writeBackTo_none (s : State) : s.writeBackTo none = s := rfl
@[simp] theorem State.writeBackTo_some (s : State) (r : RegIdx) (v : Word) :
    s.writeBackTo (some (r, v)) = s.writeReg r v := rfl

end Sys2Proof.Machine
end

