-- ==== Sys2Proof/Laws/PerInstr.lean ====
section
/-! SUPPORT. Facts about every instruction as syntax, one lemma per constructor. -/

namespace Sys2Proof.Laws

/-- The operands of a decoded instruction are in the ranges of R85. -/
def OperandsInRange.Statement (i : Instr) : Prop := i.wellFormed = true

theorem OperandsInRange.loadConst (rd : RegIdx) (imm24 : Imm24) : OperandsInRange.Statement (.loadConst rd imm24) := by
  have h1 := rd.isLt
  have h2 := imm24.isLt
  simp [OperandsInRange.Statement, Instr.wellFormed, RawInstr.wellFormed, RawInstr.bInRange, RawInstr.cInRange, Instr.toRaw,
    Op.maxB, Op.maxC]
  omega

theorem OperandsInRange.readMem (addr : Word) (rd : RegIdx) : OperandsInRange.Statement (.readMem addr rd) := by
  have h1 := addr.isLt
  have h2 := rd.isLt
  simp [OperandsInRange.Statement, Instr.wellFormed, RawInstr.wellFormed, RawInstr.bInRange, RawInstr.cInRange, Instr.toRaw,
    Op.maxB, Op.maxC]
  omega

theorem OperandsInRange.writeMem (rs raddr : RegIdx) : OperandsInRange.Statement (.writeMem rs raddr) := by
  have h1 := rs.isLt
  have h2 := raddr.isLt
  simp [OperandsInRange.Statement, Instr.wellFormed, RawInstr.wellFormed, RawInstr.bInRange, RawInstr.cInRange, Instr.toRaw,
    Op.maxB, Op.maxC]
  omega

theorem OperandsInRange.popcnt (rd : RegIdx) (addr : Word) : OperandsInRange.Statement (.popcnt rd addr) := by
  have h1 := rd.isLt
  have h2 := addr.isLt
  simp [OperandsInRange.Statement, Instr.wellFormed, RawInstr.wellFormed, RawInstr.bInRange, RawInstr.cInRange, Instr.toRaw,
    Op.maxB, Op.maxC]
  omega

/-- Each field value fits its width (R64 to R67). -/
def FieldsFit.Statement (i : Instr) : Prop := i.fieldB < 2 ^ i.op.widthB ∧ i.fieldC < 2 ^ i.op.widthC

theorem FieldsFit.loadConst (rd : RegIdx) (imm24 : Imm24) : FieldsFit.Statement (.loadConst rd imm24) :=
  ⟨rd.isLt, imm24.isLt⟩

theorem FieldsFit.readMem (addr : Word) (rd : RegIdx) : FieldsFit.Statement (.readMem addr rd) :=
  ⟨addr.isLt, rd.isLt⟩

theorem FieldsFit.writeMem (rs raddr : RegIdx) : FieldsFit.Statement (.writeMem rs raddr) :=
  ⟨rs.isLt, raddr.isLt⟩

theorem FieldsFit.popcnt (rd : RegIdx) (addr : Word) : FieldsFit.Statement (.popcnt rd addr) :=
  ⟨rd.isLt, addr.isLt⟩

end Sys2Proof.Laws
end

