-- ==== Sys2Proof/Tests/Slice0.lean ====
section
/-! SUPPORT. The model's own tests. Expected values are the spec's (95_test_vectors.md, by vector id) unless a comment says how
they were worked out from a rule; and one witness for the hypotheses of each statement that has some. -/

namespace Sys2Proof.Tests

open Sys2Proof Sys2Proof.Machine

/-- Reset with a stream, then the given registers and memory. -/
def stateOf (program : List Byte) (x : RegFile) (mem : Memory) : State :=
  { State.resetWith program with x := x, mem := mem }

/-- All registers 0. -/
def zeros : RegFile := Vector.replicate 8 0#32

/-- The outcome is a next state with this property. -/
def nextIs (o : Outcome) (p : State → Bool) : Bool :=
  match o with
  | .next t => p t
  | .fault _ => false
  | .refused _ => false

/-- The status fields of a taken fault. -/
def recordIs (t : State) (kind : BitVec 3) (pc info : Word) : Bool :=
  decide (t.status = ⟨2#2, kind, pc, info⟩)

/-! ## WellFormed refuses each ill-formed term (R85; A2 to A7) -/

theorem test_b_above_range_refused : RawInstr.wellFormed ⟨.loadConst, 8, 0⟩ = false := by decide
theorem test_c_above_range_refused : RawInstr.wellFormed ⟨.loadConst, 0, 16777216⟩ = false := by decide
theorem test_b_address_above_range_refused : RawInstr.wellFormed ⟨.readMem, 4294967296, 0⟩ = false := by decide
theorem test_c_register_above_range_refused : RawInstr.wellFormed ⟨.writeMem, 0, 8⟩ = false := by decide
theorem test_c_negative_refused : RawInstr.wellFormed ⟨.popcnt, 0, -1⟩ = false := by decide
theorem test_b_negative_refused : RawInstr.wellFormed ⟨.popcnt, -1, 0⟩ = false := by decide
theorem test_greatest_operands_accepted : RawInstr.wellFormed ⟨.popcnt, 7, 4294967295⟩ = true := by decide
/-- R85: each greatest value is `2^width - 1`. -/
theorem test_ranges_are_the_field_widths :
    [Op.loadConst, .readMem, .writeMem, .popcnt].all
      (fun op => decide (op.maxB + 1 = 2 ^ op.widthB) && decide (op.maxC + 1 = 2 ^ op.widthC)) = true := by decide

/-! ## Decoding, words written out bit by bit from R64 to R67 -/

/-- LC2: `I = 00 000011...` with C all ones, B = 111, A = 0001010. -/
theorem test_decode_load_const : decode [0x8A, 0xFF, 0xFF, 0xFF, 0x03] = .instr (.loadConst 7 16777215) 5 := by decide
/-- RM2, and DC13 with the unused bits set. -/
theorem test_decode_read_mem :
    decode [0xB6, 0xFF, 0x01, 0x00, 0x80, 0x03] = .instr (.readMem 1023 7) 6 ∧
    decode [0xB6, 0xFF, 0x01, 0x00, 0x80, 0xFF] = .instr (.readMem 1023 7) 6 := by decide
/-- WM1, and DC11's `A7 F4` with the unused bits set. -/
theorem test_decode_write_mem :
    decode [0x27, 0x04] = .instr (.writeMem 0 1) 2 ∧ decode [0xA7, 0xF4] = .instr (.writeMem 1 5) 2 := by decide
/-- PC5, and DC14 with the unused bits set. -/
theorem test_decode_popcnt :
    decode [0x92, 0xFF, 0xFF, 0xFF, 0xFF, 0x03] = .instr (.popcnt 7 4294967295) 6 ∧
    decode [0x12, 0xFE, 0x0F, 0x00, 0x00, 0xFC] = .instr (.popcnt 4 1023) 6 := by decide
/-- DC2, DC7, DC10. -/
theorem test_decode_faults :
    decode [0x7F] = .unknownOpcode 127 ∧ decode [0xA7] = .truncated 39 1 ∧
    decode [0x36, 0xC4, 0x09, 0x00] = .truncated 54 4 ∧ decode [] = .noByte := by decide
/-- S1 to S3 and PC8, encoded. -/
theorem test_encode :
    encode (.loadConst 6 632) = [0x0A, 0xE3, 0x09, 0x00, 0x00] ∧
    encode (.readMem 328 3) = [0x36, 0xA4, 0x00, 0x00, 0x80, 0x01] ∧
    encode (.writeMem 1 5) = [0xA7, 0x14] ∧ encode (.popcnt 6 0) = [0x12, 0x03, 0x00, 0x00, 0x00, 0x00] := by decide
/-- The opcode table's `match` words, all fields 0. -/
theorem test_table_words :
    decodeTableWord 40 0xA = some (.loadConst 0 0) ∧ decodeTableWord 48 0x36 = some (.readMem 0 0) ∧
    decodeTableWord 16 0x27 = some (.writeMem 0 0) ∧ decodeTableWord 48 0x12 = some (.popcnt 0 0) ∧
    decodeTableWord 8 0x7F = none := by decide

/-! ## One step of each instruction -/

/-- LC2: `x[7]` = 0x00FFFFFF, `pc` = 5 = L. -/
theorem test_load_const_greatest :
    nextIs (step (stateOf [0x8A, 0xFF, 0xFF, 0xFF, 0x03] zeros []))
      (fun t => decide (t.readReg 7 = 0xFFFFFF#32 ∧ t.pc = 5#32 ∧ t.runState = .halted)) = true := by decide
/-- LC3: an old value is overwritten; with a byte left, the run goes on. -/
theorem test_load_const_overwrites :
    nextIs (step (stateOf [0x8A, 0x02, 0x00, 0x00, 0x00, 0x00] (zeros.set 5 16777215#32) []))
      (fun t => decide (t.readReg 5 = 0#32 ∧ t.runState = .running)) = true := by decide
/-- RM2: the highest cell is read and stays. -/
theorem test_read_mem_highest_cell :
    nextIs (step (stateOf [0xB6, 0xFF, 0x01, 0x00, 0x80, 0x03] zeros [(1023, 24#32)]))
      (fun t => decide (t.readReg 7 = 24#32 ∧ t.readCell 1023 = 24#32 ∧ t.pc = 6#32)) = true := by decide
/-- RM5: only `B[31]` is set. -/
theorem test_read_mem_out_of_bounds :
    nextIs (step (stateOf [0x36, 0x00, 0x00, 0x00, 0xC0, 0x00] zeros []))
      (fun t => recordIs t 3 0 0x80000000#32 && decide (t.pc = 0#32)) = true := by decide
/-- WM5: data and address register the same, between two cells already there. -/
theorem test_write_mem_same_register :
    nextIs (step (stateOf [0x27, 0x09] (zeros.set 2 7#32) [(3, 1#32), (9, 2#32)]))
      (fun t => decide (t.mem = [(3, 1#32), (7, 7#32), (9, 2#32)] ∧ t.pc = 2#32)) = true := by decide
/-- WM3. -/
theorem test_write_mem_out_of_bounds :
    nextIs (step (stateOf [0x27, 0x0C] ((zeros.set 3 1024#32).set 0 5#32) []))
      (fun t => recordIs t 4 0 1024#32 && decide (t.mem = [])) = true := by decide
/-- PC6: the cell and the register; the register's old value plays no part. -/
theorem test_popcnt_writes_both :
    nextIs (step (stateOf [0x12, 0x07, 0x00, 0x00, 0x00, 0x00] (zeros.set 6 99#32) [(1, 24#32)]))
      (fun t => decide (t.readReg 6 = 2#32 ∧ t.mem = [(1, 2#32)])) = true := by decide
/-- PC4. -/
theorem test_popcnt_out_of_bounds :
    nextIs (step (stateOf [0x12, 0x00, 0x10, 0x00, 0x00, 0x00] (zeros.set 0 9#32) []))
      (fun t => recordIs t 5 0 1024#32 && decide (t.readReg 0 = 9#32)) = true := by decide
/-- DC2 and DC4. -/
theorem test_decode_faults_are_taken :
    nextIs (step (stateOf [0x7F] zeros [])) (fun t => recordIs t 1 0 0x7F#32) = true ∧
    nextIs (step (stateOf [0x0A, 0x00, 0x00] zeros [])) (fun t => recordIs t 2 0 0x30A#32) = true := by decide
/-- Log 1, R26: a stored 0 leaves the memory as if the cell had never been written (worked out from R46). -/
theorem test_storing_zero_keeps_canonical_form :
    Memory.write [(3, 1#32), (7, 7#32)] 7 0#32 = [(3, 1#32)] := by decide
/-- DC15, R171, R77. -/
theorem test_reset_is_halted : State.reset.status = ⟨1#2, 0#3, 0#32, 0#32⟩ := by decide
/-- The fetch word runs as the first instruction after reset. -/
theorem test_fetch_word_runs :
    nextIs (step (State.reset.withFetchWord 40 0x9E30A)) (fun t => decide (t.readReg 6 = 632#32 ∧ t.pc = 5#32)) = true := by decide

/-! ## Datapath, read-out port, translator -/

/-- R177's row of POPCNT, and R74's slices for `POPCNT 5 1023` (PC3). -/
theorem test_datapath_popcnt :
    decoderOutputs .popcnt 0xFFE92#48 = ⟨.popcnt, 6, some 5, none, none, none, some 1023#32⟩ ∧
    writeBack (decoderOutputs .popcnt 0xFFE92#48) (stateOf [] zeros [(1023, 16777215#32)]) = some (5, 24#32) := by decide
/-- R101, R111, R116, R177: `READ_MEM 5000 0`, and a WRITE_MEM whose address register holds 1024, drive no memory port and no
register write port; `READ_MEM 1023 0` does. -/
theorem test_failed_bounds_check_drives_no_port :
    let far := stateOf [] (zeros.set 3 1024#32) []
    portsDriven (decoderOutputs .readMem 0x9C436#48) far = ⟨false, false, false, false, false, 6⟩ ∧
    memWritePort (decoderOutputs .writeMem 0x0C27#48) far = none ∧
    portsDriven (decoderOutputs .writeMem 0x0C27#48) far = ⟨true, true, false, false, false, 2⟩ ∧
    portsDriven (decoderOutputs .readMem 0x1FFB6#48) far = ⟨false, false, true, true, false, 6⟩ := by decide
/-- The state after program P1 (its stated end state): RO2, RO6, RO7; and a request that is no pair. -/
theorem test_read_out_port :
    let s := { stateOf [] zeros [(10, 25#32)] with runState := .halted }
    s.readSlice [.int 8, .int 12] = .ok [0#32, 0#32, 25#32, 0#32] ∧
    s.readSlice [.int 12, .int 10] = .memoryRangeOutOfBounds ∧ s.readSlice [.int (-1), .int 3] = .memoryRangeOutOfBounds ∧
    s.readSlice [.int 1, .other] = .invalidMemoryRangeFormat := by decide
/-- RO8, RO9: after a fault. -/
theorem test_read_out_port_after_fault :
    let s := { stateOf [] zeros [] with runState := .faulted }
    s.readSlice [.int 0, .int 4] = .noResult ∧ s.readSlice [.int 0, .int 2000] = .memoryRangeOutOfBounds := by decide
/-- A1: bytes and log. -/
theorem test_translate_line :
    assemble ["LOAD_CONST 7 16777215".toList] = .ok ([0x8A, 0xFF, 0xFF, 0xFF, 0x03], [⟨10, 7, 16777215⟩]) := by decide
/-- A6, A8, A9, A10. -/
theorem test_translate_errors :
    translateLine "POPCNT 9 99999999999".toList = .error (.fieldOutOfRange .b 9 .popcnt) ∧
    translateLine "JUMP 1 2".toList = .error (.unknownOpcode "JUMP".toList) ∧
    translateLine "   # comment".toList = .ok none ∧ translateLine [] = .ok none ∧
    translateLine "LOAD_CONST 1".toList = .error .malformedLine := by decide
/-- A7: the mnemonic in lower case, the message in upper case. -/
theorem test_translate_message :
    translateLine "popcnt 0 -1".toList = .error (.fieldOutOfRange .c (-1) .popcnt) ∧
    AsmError.message (.fieldOutOfRange .c (-1) .popcnt) = "Field C=-1 out of range for POPCNT (0-4294967295)" := by decide

/-! ## Witnesses: the hypotheses of each statement are met -/

theorem witness_ReadMemCompletesInBounds : (1023#32 : Word).toNat < 1024 := by decide

/-- `x[3]` = 1023 addresses the highest cell (WM2's start state). -/
def writeState : State := stateOf [0xA7, 0x0C] ((zeros.set 3 1023#32).set 1 7#32) [(5, 25#32)]

theorem witness_WriteMemCompletesInBounds : writeState.mem.wf = true ∧ (writeState.readReg 3).toNat < 1024 := by decide
theorem witness_PopcntCompletesInBounds : writeState.mem.wf = true ∧ (1023#32 : Word).toNat < 1024 := by decide
theorem witness_PopcntParameterDecidesOnlyTheCell :
    writeState.mem.wf = true ∧ (1023#32 : Word).toNat < 1024 ∧ 1024 ≤ (1024#32 : Word).toNat := by decide
theorem witness_InvalidAddressFaultsBeforeAnyWrite :
    1024 ≤ (1024#32 : Word).toNat ∧ 1024 ≤ ((stateOf [] (zeros.set 3 1024#32) []).readReg 3).toNat ∧
    1024 ≤ (0xFFFFFFFF#32 : Word).toNat := by decide
theorem witness_BoundsFaultRecordsKindPcAndAddress :
    nextIs (exec (.readMem 1024 0) writeState) (fun _ => true) = true ∧
    nextIs (exec (.writeMem 0 3) (stateOf [] (zeros.set 3 1024#32) [])) (fun _ => true) = true ∧
    nextIs (exec (.popcnt 0 1024) writeState) (fun _ => true) = true ∧
    (stateOf [] (zeros.set 3 1024#32) []).readReg 3 = 1024#32 ∧ 1024 ≤ (1024#32 : Word).toNat := by decide
theorem witness_EachInstructionRaisesOnlyItsOwnFault :
    writeState.runState ≠ .faulted ∧ tagOf 0x8A#8 = Op.loadConst.tag := by decide
theorem witness_ExecWritesOnlyItsTargets :
    writeState.mem.wf = true ∧ ∃ t, exec (.writeMem 1 3) writeState = .next t ∧ t.readCell 1023 ≠ writeState.readCell 1023 :=
  ⟨by decide, _, rfl, by decide⟩
theorem witness_ExecReadsOnlyItsSourceRegisters :
    let x := ((zeros.set 3 1023#32).set 1 7#32).set 0 9#32
    writeState.x[1] = x[1] ∧ writeState.x[3] = x[3] ∧ writeState.x ≠ x := by decide
theorem witness_StoreIsSeenByTheNextAccess : writeState.mem.wf = true ∧ (writeState.readReg 3).toNat < 1024 := by decide
theorem witness_PopcountOfReachableValueIsAtMost24 : (16777215#32 : Word).toNat < 2 ^ 24 := by decide
theorem witness_AddressTranslationIsTheLowTenBits : validAddr 1023#32 = true ∧ validAddr 1024#32 = false := by decide

/-- The premises of the four from-bytes statements: a full instruction, and one byte too few. -/
def fromBytesMet (program : List Byte) (tag : Tag) (tailLength : Nat) : Bool :=
  match (stateOf program zeros []).program.drop (stateOf program zeros []).pc.toNat with
  | [] => false
  | b0 :: tail => decide (b0.extractLsb' 0 7 = tag) && decide (tail.length = tailLength) &&
      decide ((stateOf program zeros []).runState = .running) && (stateOf program zeros []).mem.wf

theorem witness_LoadConstFromBytes :
    fromBytesMet [0x8A, 0xFF, 0xFF, 0xFF, 0x03] 10 4 = true ∧ fromBytesMet [0x8A, 0xFF, 0xFF, 0xFF] 10 3 = true := by decide
/-- Addresses 1023 and 1024, and five bytes. -/
theorem witness_ReadMemFromBytes :
    fromBytesMet [0xB6, 0xFF, 0x01, 0x00, 0x80, 0x03] 54 5 = true ∧ fromBytesMet [0x36, 0x00, 0x02, 0x00, 0x00, 0x00] 54 5 = true ∧
    (0x00#8).extractLsb' 0 7 ++ 0x00#8 ++ 0x02#8 ++ 0x00#8 ++ (0x36#8).extractLsb' 7 1 = 1024#32 ∧
    (0x80#8).extractLsb' 0 7 ++ 0x00#8 ++ 0x01#8 ++ 0xFF#8 ++ (0xB6#8).extractLsb' 7 1 = 1023#32 ∧
    fromBytesMet [0x36, 0x00, 0x02, 0x00, 0x00] 54 4 = true := by decide
/-- A store, an address register that holds 1024, and one byte. -/
theorem witness_WriteMemFromBytes :
    fromBytesMet [0xA7, 0x0C] 39 1 = true ∧ fromBytesMet [0xA7] 39 0 = true ∧
    (1 : RegIdx).val = ((0x0C#8).extractLsb' 0 2 ++ (0xA7#8).extractLsb' 7 1).toNat ∧
    (3 : RegIdx).val = ((0x0C#8).extractLsb' 2 3).toNat ∧ writeState.runState = .running ∧
    (writeState.readReg 3).toNat < 1024 ∧ ((stateOf [0xA7, 0x0C] (zeros.set 3 1024#32) []).readReg 3).toNat = 1024 := by decide
/-- Addresses 1023 and 1024, and five bytes. -/
theorem witness_PopcntFromBytes :
    fromBytesMet [0x92, 0xFE, 0x0F, 0x00, 0x00, 0x00] 18 5 = true ∧ fromBytesMet [0x12, 0x00, 0x10, 0x00, 0x00, 0x00] 18 5 = true ∧
    (0x00#8).extractLsb' 0 2 ++ 0x00#8 ++ 0x00#8 ++ 0x0F#8 ++ (0xFE#8).extractLsb' 2 6 = 1023#32 ∧
    (0x00#8).extractLsb' 0 2 ++ 0x00#8 ++ 0x00#8 ++ 0x10#8 ++ (0x00#8).extractLsb' 2 6 = 1024#32 ∧
    fromBytesMet [0x12, 0x00, 0x10, 0x00, 0x00] 18 4 = true := by decide

theorem witness_LoadConstFormat : (0x8A#8).extractLsb' 0 7 = 10#7 := by decide
theorem witness_ReadMemFormat : (0xB6#8).extractLsb' 0 7 = 54#7 := by decide
theorem witness_WriteMemFormat : (0xA7#8).extractLsb' 0 7 = 39#7 := by decide
theorem witness_PopcntFormat : (0x92#8).extractLsb' 0 7 = 18#7 := by decide
theorem witness_InstructionIntegerIsLittleEndian : 1 < ([0xA7#8, 0x14#8] : List Byte).length := by decide
theorem witness_DecodeOfEncodeIsTheInstruction : (Instr.popcnt 7 4294967295).wellFormed = true := by decide
theorem witness_EncodeOfDecodeClearsUnusedBits : decode [0x0A, 0x64, 0x00, 0x00, 0xFC] = .instr (.loadConst 0 25) 5 := by decide
theorem witness_UnusedBitsAreIgnored :
    0xF4A7 % 2 ^ 7 = Op.writeMem.tag.toNat ∧
    0xF4A7 % 2 ^ (7 + Op.writeMem.widthB + Op.writeMem.widthC) = 0x14A7 % 2 ^ (7 + Op.writeMem.widthB + Op.writeMem.widthC) := by
  decide
theorem witness_DecodeReadsOnlyItsOwnBytes : decode [0xA7, 0x14, 0x55] = .instr (.writeMem 1 5) 2 := by decide
theorem witness_IllegalTagsAndOnlyThoseAreUnknown :
    (stateOf [0x0B] zeros []).runState = .running ∧ (stateOf [0x0B] zeros []).program.drop 0 = [0x0B] ∧
    ((0x0B#8).extractLsb' 0 7).toNat = 11 ∧ ((0xA7#8).extractLsb' 0 7).toNat = 39 ∧
    (stateOf [0xA7, 0x14] zeros []).program.drop 0 = [0xA7, 0x14] ∧
    (stateOf [0xA7] zeros []).program.drop 0 = [0xA7] := by decide
theorem witness_LengthIsFixedByTheFirstByte : decode [0xA7, 0x14] = .instr (.writeMem 1 5) 2 := by decide
theorem witness_TruncatedInstructionIsTaken :
    (stateOf [0xA7] zeros []).runState = .running ∧ (stateOf [0xA7] zeros []).program.drop 0 = [0xA7] ∧
    (0xA7#8).extractLsb' 0 7 = Op.writeMem.tag ∧ ([0xA7] : List Byte).length < Op.writeMem.width := by decide
theorem witness_StepRunsTheDecodedInstruction :
    writeState.runState = .running ∧ writeState.fetch = .instr (.writeMem 1 3) 2 ∧ (Instr.writeMem 1 3).wellFormed = true := by
  decide
/-- An instruction at the odd offset 1. -/
theorem witness_StepRunsAnEncodedInstruction :
    let s := { stateOf [0x00, 0xA7, 0x0C, 0x12] zeros [] with pc := 1#32 }
    s.runState = .running ∧ s.program = [0x00] ++ encode (.writeMem 1 3) ++ [0x12] ∧ s.pc.toNat = ([0x00] : List Byte).length := by
  decide
theorem witness_FetchWordIsRunNext : decodeTableWord 16 0x14A7 = some (.writeMem 1 5) := by decide
theorem witness_FinalStatesDoNotStep :
    State.reset.runState = .halted ∧ (writeState.raiseFault .memoryWriteOutOfBounds 1024).runState = .faulted := by decide
theorem witness_RunningStateAlwaysSteps : writeState.statusOk ∧ writeState.runState = .running := by decide
theorem witness_StepKeepsStatusConsistent : writeState.statusOk ∧ ∃ t, step writeState = .next t := ⟨by decide, _, rfl⟩
theorem witness_StepKeepsMemoryCanonical : writeState.mem.wf = true ∧ ∃ t, step writeState = .next t := ⟨by decide, _, rfl⟩
theorem witness_StepKeepsValuesBelow24Bits :
    let s := State.resetWith [0x8A, 0xFF, 0xFF, 0xFF, 0x03]
    s.mem.wf = true ∧ s.valuesBelow24 ∧ ∃ t, step s = .next t :=
  ⟨rfl, ⟨fun r => by simp, fun a => by simp⟩, _, rfl⟩
theorem witness_LaunchResetsAndEstablishesInvariant : ([0x27, 0x04] : List Byte).length ≤ 2 ^ 32 - 1 := by decide
/-- A stream of 2^32 bytes is one byte too long; its length is read off, the stream is not unfolded. -/
theorem witness_LaunchResetsAndEstablishesInvariant_too_long : 2 ^ 32 - 1 < (List.replicate (2 ^ 32) 0#8).length := by
  rw [List.length_replicate]; norm_num
theorem witness_EveryRunEnds : writeState.statusOk := by decide
theorem witness_StepNeverWritesTheProgram : ∃ t, step writeState = .next t := ⟨_, rfl⟩
theorem witness_PcAdvancesByTheInstructionWidth : writeState.statusOk ∧ ∃ t, step writeState = .next t := ⟨by decide, _, rfl⟩
theorem witness_HaltsExactlyAtTheEndOfTheStream : writeState.statusOk ∧ ∃ t, step writeState = .next t := ⟨by decide, _, rfl⟩
theorem witness_TakingAFaultChangesOnlyTheRecord :
    ∃ t, step (stateOf [0x7F] zeros []) = .next t ∧ t.runState = .faulted := ⟨_, rfl, rfl⟩
/-- Two states that differ in the fault record alone; and one stream whose run ends. -/
theorem witness_StepDependsOnlyOnProgramPcRegistersMemory :
    (∃ t : State, t = { writeState with faultInfo := 1#32 } ∧ writeState.runState = .running ∧ t.runState = .running ∧
      writeState.program = t.program ∧ writeState.pc = t.pc ∧ writeState.x = t.x ∧ writeState.mem = t.mem ∧ writeState ≠ t ∧
      ∃ s', step writeState = .next s') ∧
    ∃ t, run 1 (State.resetWith [0x27, 0x04]) = .next t ∧ t.final :=
  ⟨⟨_, rfl, by decide, by decide, rfl, rfl, rfl, rfl, by decide, _, rfl⟩, _, rfl, .inl (by decide)⟩
theorem witness_DatapathRefinesExec : decode [0x92, 0xFE, 0x0F, 0x00, 0x00, 0x00] = .instr (.popcnt 5 1023) 6 := by decide
/-- Data addresses 1023 and 1024 by an address field and by a register; and no data address. -/
theorem witness_PortsDrivenAreTheTablesPorts :
    dataAddress (decoderOutputs .readMem 0x1FFB6#48) writeState = some 1023#32 ∧
    dataAddress (decoderOutputs .popcnt 0x100012#48) writeState = some 1024#32 ∧
    dataAddress (decoderOutputs .writeMem 0x0C27#48) writeState = some 1023#32 ∧
    dataAddress (decoderOutputs .writeMem 0x0C27#48) (stateOf [] (zeros.set 3 1024#32) []) = some 1024#32 ∧
    dataAddress (decoderOutputs .loadConst 0x0A#48) writeState = none := by decide
/-- No pair; `1025` and `12 > 10`; a run not halted; and a slice up to 1024. -/
theorem witness_ReadOutPortAnswersInOrder :
    (∀ a b : Int, [HostValue.int 1] ≠ [.int a, .int b]) ∧ ¬ ((0 : Int) ≤ 0 ∧ (0 : Int) ≤ 1025 ∧ (1025 : Int) ≤ 1024) ∧
    ¬ ((0 : Int) ≤ 12 ∧ (12 : Int) ≤ 10 ∧ (10 : Int) ≤ 1024) ∧ writeState.runState ≠ .halted ∧ State.reset.runState = .halted ∧
    1023 + 1 ≤ 1024 :=
  ⟨fun a b h => by simp at h, by decide, by decide, by decide, by decide, by decide⟩
theorem witness_FaultedStatesShowOnlyTheRecord :
    let s := writeState.raiseFault .memoryWriteOutOfBounds 1024
    let t := (stateOf [0xA7, 0x0C] zeros []).raiseFault .memoryWriteOutOfBounds 1024
    s.runState = .faulted ∧ t.runState = .faulted ∧ sameRecord s t ∧ s ≠ t := by decide
theorem witness_ValidationOrderOfALine :
    tokens "JUMP 9 x".toList = "JUMP".toList :: ["9".toList, "x".toList] ∧ "JUMP".toList.head? ≠ some '#' ∧
    opOfToken "JUMP".toList = none ∧
    tokens "POPCNT 9 4294967296".toList = "POPCNT".toList :: ["9".toList, "4294967296".toList] ∧
    opOfToken "POPCNT".toList = some .popcnt ∧
    parseOperands .popcnt ["9".toList, "4294967296".toList] = .ok ⟨.popcnt, 9, 4294967296⟩ ∧
    RawInstr.bInRange ⟨.popcnt, 9, 4294967296⟩ = false ∧
    parseOperands .popcnt ["7".toList, "4294967296".toList] = .ok ⟨.popcnt, 7, 4294967296⟩ ∧
    RawInstr.bInRange ⟨.popcnt, 7, 4294967296⟩ = true ∧ RawInstr.cInRange ⟨.popcnt, 7, 4294967296⟩ = false ∧
    parseOperands .popcnt ["7".toList, "4294967295".toList] = .ok ⟨.popcnt, 7, 4294967295⟩ ∧
    RawInstr.wellFormed ⟨.popcnt, 7, 4294967295⟩ = true := by decide
/-- Each field at its greatest value and one above; a negative one. -/
theorem witness_EncodesExactlyTheInRangeOperands :
    (7 : Int) < 2 ^ Op.popcnt.widthB ∧ (4294967295 : Int) < 2 ^ Op.popcnt.widthC ∧ (2 : Int) ^ Op.popcnt.widthB ≤ 8 ∧
    (2 : Int) ^ Op.popcnt.widthC ≤ 4294967296 ∧ (-1 : Int) < 0 := by decide
theorem witness_StreamIsTheConcatenatedEncodings :
    assemble ["WRITE_MEM 1 5".toList, [], "# c".toList] = .ok ([0xA7, 0x14], [⟨39, 1, 5⟩]) ∧
    assemble ["write_mem 0 1".toList] = .ok ([0x27, 0x04], [⟨39, 0, 1⟩]) := by decide
theorem witness_FirstMalformedLineAborts :
    assemble ["WRITE_MEM 1 5".toList] = .ok ([0xA7, 0x14], [⟨39, 1, 5⟩]) ∧
    translateLine "WRITE_MEM 1".toList = .error .malformedLine := by decide
theorem witness_TranslatedProgramsNeverFaultInDecode :
    assemble ["WRITE_MEM 0 1".toList] = .ok ([0x27, 0x04], [⟨39, 0, 1⟩]) ∧ ([0x27, 0x04] : List Byte).length ≤ 2 ^ 32 - 1 ∧
    ∃ t, run 1 (State.resetWith [0x27, 0x04]) = .next t := ⟨by decide, by decide, _, rfl⟩
/-- A boundary in the middle of a program, and its next step. -/
theorem witness_StepStaysOnInstructionBoundaries :
    let is := [Instr.writeMem 1 3, .loadConst 0 5]
    let s := { stateOf [0xA7, 0x0C, 0x0A, 0x14, 0x00, 0x00, 0x00] zeros [] with pc := 2#32 }
    s.runsProgram is ∧ (∃ t, step s = .next t) ∧ (is.flatMap encode).length ≤ 2 ^ 32 - 1 :=
  ⟨⟨by decide, by decide, ⟨[.writeMem 1 3], [.loadConst 0 5], rfl, by decide⟩, by decide, by decide⟩, ⟨_, rfl⟩, by decide⟩
/-- A step that executes, one whose bounds check fails, and two that fault in decode. -/
theorem witness_StepUsesTheTablesPortsUpToItsFault :
    (∃ t, step writeState = .next t ∧ t.runState ≠ .faulted) ∧ writeState.fetch = .instr (.writeMem 1 3) 2 ∧
    (∃ t, step (stateOf [0xA7, 0x0C] (zeros.set 3 1024#32) []) = .next t ∧ t.runState = .faulted) ∧
    (∃ t, step (stateOf [0x7F] zeros []) = .next t) ∧ (stateOf [0x7F] zeros []).fetch = .unknownOpcode 127#7 ∧
    (∃ t, step (stateOf [0xA7] zeros []) = .next t) ∧ (stateOf [0xA7] zeros []).fetch = .truncated 39#7 1 :=
  ⟨⟨_, rfl, by decide⟩, by decide, ⟨_, rfl, by decide⟩, ⟨_, rfl⟩, by decide, ⟨_, rfl⟩, by decide⟩

end Sys2Proof.Tests
end

