-- ==== Sys2Proof/Proofs/ResetState.lean ====
section
/-! What the register file holds at engine start (10_state.md, R22), with a program supplied and before any is. -/

namespace Sys2Proof.Machine

/-- `State.reset` is reset with the empty stream, so the rule for every stream applies (R22, R170; log 8). -/
@[simp] theorem State.readReg_reset (r : RegIdx) : State.reset.readReg r = 0#32 :=
  State.readReg_resetWith [] r

/-- Settles O42: a read after reset with any stream, and the same read before a stream is supplied. -/
theorem registersAreZeroAtReset : Obligations.RegistersAreZeroAtReset :=
  ⟨State.readReg_resetWith, State.readReg_reset⟩

end Sys2Proof.Machine
end

section
/-! The data accesses at an invalid address (20_memory.md, R49): each ends in its own bounds fault. -/

namespace Sys2Proof.Machine

/-- Raising a fault touches the run state and the fault record only (R140, R144, R148). -/
theorem raisesFault_raiseFault (s : State) (kind : FaultKind) (info : Word) :
    raisesFault s (s.raiseFault kind info) kind :=
  ⟨s.raiseFault_runState kind info, s.raiseFault_faultKind kind info, s.readReg_raiseFault kind info,
    s.readCell_raiseFault kind info, s.raiseFault_pc kind info, s.raiseFault_program kind info⟩

/-- READ_MEM checks its address field before it reads the cell (R110). -/
theorem exec_readMem_of_ge {addr : Word} (h : 1024 ≤ addr.toNat) (rd : RegIdx) (s : State) :
    exec (.readMem addr rd) s = .next (s.raiseFault .memoryReadOutOfBounds addr) :=
  ((exec_readMem_cases addr rd s).resolve_left fun hlt => Nat.not_lt.2 h hlt.1).2

/-- WRITE_MEM checks the value of its address register before it stores (R115). -/
theorem exec_writeMem_of_ge {raddr : RegIdx} {s : State} (h : 1024 ≤ (s.readReg raddr).toNat) (rs : RegIdx) :
    exec (.writeMem rs raddr) s = .next (s.raiseFault .memoryWriteOutOfBounds (s.readReg raddr)) :=
  ((exec_writeMem_cases rs raddr s).resolve_left fun hlt => Nat.not_lt.2 h hlt.1).2

/-- POPCNT checks its address field before it reads the cell, so before either of its writes (R131). -/
theorem exec_popcnt_of_ge {addr : Word} (h : 1024 ≤ addr.toNat) (rd : RegIdx) (s : State) :
    exec (.popcnt rd addr) s = .next (s.raiseFault .memoryPopcntOutOfBounds addr) :=
  ((exec_popcnt_cases rd addr s).resolve_left fun hlt => Nat.not_lt.2 h hlt.1).2

/-- Settles O6: at an invalid address each access is its own bounds fault, and raising a fault keeps registers, cells
and `pc`. -/
theorem invalidAddressFaultsBeforeAnyWrite : Obligations.InvalidAddressFaultsBeforeAnyWrite := by
  refine ⟨validAddr_iff, ?readMem, ?writeMem, ?popcnt⟩
  case readMem =>
    intro addr rd s h
    exact ⟨_, exec_readMem_of_ge h rd s, raisesFault_raiseFault s _ addr⟩
  case writeMem =>
    intro rs raddr s h
    exact ⟨_, exec_writeMem_of_ge h rs, raisesFault_raiseFault s _ (s.readReg raddr)⟩
  case popcnt =>
    intro rd addr s h
    exact ⟨_, exec_popcnt_of_ge h rd s, raisesFault_raiseFault s _ addr⟩

end Sys2Proof.Machine
end

section
/-! The four formats byte by byte (30_encoding.md, R63 to R68), and the length the first byte fixes (R73). -/

namespace Sys2Proof

/-- A legal tag with its `W` bytes there selects its opcode, and the fields come from the first `W` bytes (R63, R75). -/
theorem decode_of_tag {first : Byte} {rest : List Byte} {op : Op} (htag : first.extractLsb' 0 7 = op.tag)
    (hlen : op.width ≤ (first :: rest).length) :
    decode (first :: rest) = .instr (instrOfInt op (instrInt ((first :: rest).take op.width))) op.width := by
  have hop : opOfTag (tagOf first) = some op := opOfTag_eq_some.2 htag
  simp only [decode, hop, if_neg (Nat.not_lt.2 hlen)]

/-- A legal tag with fewer than `W` bytes there is a truncated instruction (R76). -/
theorem decode_truncated_of_tag {first : Byte} {rest : List Byte} {op : Op} (htag : first.extractLsb' 0 7 = op.tag)
    (hlen : (first :: rest).length < op.width) :
    decode (first :: rest) = .truncated (tagOf first) (first :: rest).length := by
  have hop : opOfTag (tagOf first) = some op := opOfTag_eq_some.2 htag
  simp only [decode, hop, if_pos hlen]

/-- A first byte whose tag no opcode has is an unknown opcode, whatever follows (R72). -/
theorem decode_unknown_of_tag {first : Byte} (htag : ∀ op : Op, op.tag ≠ first.extractLsb' 0 7) (rest : List Byte) :
    decode (first :: rest) = .unknownOpcode (tagOf first) := by
  have hop : opOfTag (tagOf first) = none := opOfTag_eq_none.2 fun op h => htag op h.symm
  simp only [decode, hop]

/-- The instruction is known once the bit slices that hold its two fields are. -/
theorem instrOfInt_eq_of_slices {op : Op} {I b c : Nat} (hb : I / 2 ^ 7 % 2 ^ op.widthB = b)
    (hc : I / 2 ^ (7 + op.widthB) % 2 ^ op.widthC = c) : instrOfInt op I = instrOfFields op b c := by
  rw [instrOfInt, fieldB_eq, fieldC_eq, hb, hc]

/-- A 3-bit slice is taken as a register index unchanged (R68). -/
theorem regIdx_ofNat_toNat (v : BitVec 3) : (Fin.ofNat 8 v.toNat : RegIdx) = v.toFin :=
  Fin.ext (Nat.mod_eq_of_lt v.isLt)

/-- Concatenation in arithmetic: the left part stands above the right one. -/
theorem toNat_append_eq_add {m n : Nat} (x : BitVec m) (y : BitVec n) : (x ++ y).toNat = x.toNat * 2 ^ n + y.toNat := by
  rw [BitVec.toNat_append, ← Nat.shiftLeft_add_eq_or_of_lt y.isLt, Nat.shiftLeft_eq]

/-- A bit slice in arithmetic. -/
theorem toNat_extractLsb'_eq {n : Nat} (start len : Nat) (x : BitVec n) :
    (x.extractLsb' start len).toNat = x.toNat / 2 ^ start % 2 ^ len := by
  rw [BitVec.extractLsb'_toNat, Nat.shiftRight_eq_div_pow]

/-! Slices of the instruction integer, each as a slice of the bytes it lies in. -/

/-- `I[9:7]`: the register field B of LOAD_CONST, WRITE_MEM and POPCNT. -/
theorem instrInt_slice_7_3 (b0 b1 : Byte) (rest : List Byte) :
    instrInt (b0 :: b1 :: rest) / 2 ^ 7 % 2 ^ 3 = (b1.extractLsb' 0 2 ++ b0.extractLsb' 7 1).toNat := by
  have h0 := b0.isLt
  simp only [instrInt_cons, toNat_append_eq_add, toNat_extractLsb'_eq]
  omega

/-- `I[12:10]`: the register field C of WRITE_MEM. -/
theorem instrInt_slice_10_3 (b0 b1 : Byte) (rest : List Byte) :
    instrInt (b0 :: b1 :: rest) / 2 ^ 10 % 2 ^ 3 = (b1.extractLsb' 2 3).toNat := by
  have h0 := b0.isLt
  simp only [instrInt_cons, toNat_extractLsb'_eq]
  omega

/-- `I[33:10]`: the constant of LOAD_CONST. -/
theorem instrInt_slice_10_24 (b0 b1 b2 b3 b4 : Byte) (rest : List Byte) :
    instrInt (b0 :: b1 :: b2 :: b3 :: b4 :: rest) / 2 ^ 10 % 2 ^ 24 =
      (b4.extractLsb' 0 2 ++ b3 ++ b2 ++ b1.extractLsb' 2 6).toNat := by
  have h0 := b0.isLt; have h1 := b1.isLt; have h2 := b2.isLt; have h3 := b3.isLt
  simp only [instrInt_cons, toNat_append_eq_add, toNat_extractLsb'_eq]
  omega

/-- `I[41:10]`: the address of POPCNT. -/
theorem instrInt_slice_10_32 (b0 b1 b2 b3 b4 b5 : Byte) (rest : List Byte) :
    instrInt (b0 :: b1 :: b2 :: b3 :: b4 :: b5 :: rest) / 2 ^ 10 % 2 ^ 32 =
      (b5.extractLsb' 0 2 ++ b4 ++ b3 ++ b2 ++ b1.extractLsb' 2 6).toNat := by
  have h0 := b0.isLt; have h1 := b1.isLt; have h2 := b2.isLt; have h3 := b3.isLt; have h4 := b4.isLt
  simp only [instrInt_cons, toNat_append_eq_add, toNat_extractLsb'_eq]
  omega

/-- `I[38:7]`: the address of READ_MEM. -/
theorem instrInt_slice_7_32 (b0 b1 b2 b3 b4 : Byte) (rest : List Byte) :
    instrInt (b0 :: b1 :: b2 :: b3 :: b4 :: rest) / 2 ^ 7 % 2 ^ 32 =
      (b4.extractLsb' 0 7 ++ b3 ++ b2 ++ b1 ++ b0.extractLsb' 7 1).toNat := by
  have h0 := b0.isLt; have h1 := b1.isLt; have h2 := b2.isLt; have h3 := b3.isLt
  simp only [instrInt_cons, toNat_append_eq_add, toNat_extractLsb'_eq]
  omega

/-- `I[41:39]`: the destination register of READ_MEM. -/
theorem instrInt_slice_39_3 (b0 b1 b2 b3 b4 b5 : Byte) (rest : List Byte) :
    instrInt (b0 :: b1 :: b2 :: b3 :: b4 :: b5 :: rest) / 2 ^ 39 % 2 ^ 3 =
      (b5.extractLsb' 0 2 ++ b4.extractLsb' 7 1).toNat := by
  have h0 := b0.isLt; have h1 := b1.isLt; have h2 := b2.isLt; have h3 := b3.isLt; have h4 := b4.isLt
  simp only [instrInt_cons, toNat_append_eq_add, toNat_extractLsb'_eq]
  omega

/-- Settles O19: B is `I[9:7]`, C is `I[33:10]`. -/
theorem loadConstFormat : Obligations.LoadConstFormat := by
  intro b0 b1 b2 b3 b4 rest htag
  have hfields : instrOfInt .loadConst (instrInt [b0, b1, b2, b3, b4]) = _ :=
    instrOfInt_eq_of_slices (instrInt_slice_7_3 b0 b1 _) (instrInt_slice_10_24 b0 b1 b2 b3 b4 [])
  rw [decode_of_tag (op := .loadConst) htag (Nat.le_add_left 5 _)]
  simp only [Op.width, List.take_succ_cons, List.take_zero, hfields, instrOfFields, regIdx_ofNat_toNat,
    BitVec.ofNat_toNat, BitVec.setWidth_eq]

/-- Settles O20: B is `I[38:7]`, C is `I[41:39]`. -/
theorem readMemFormat : Obligations.ReadMemFormat := by
  intro b0 b1 b2 b3 b4 b5 rest htag
  have hfields : instrOfInt .readMem (instrInt [b0, b1, b2, b3, b4, b5]) = _ :=
    instrOfInt_eq_of_slices (instrInt_slice_7_32 b0 b1 b2 b3 b4 _) (instrInt_slice_39_3 b0 b1 b2 b3 b4 b5 [])
  rw [decode_of_tag (op := .readMem) htag (Nat.le_add_left 6 _)]
  simp only [Op.width, List.take_succ_cons, List.take_zero, hfields, instrOfFields, regIdx_ofNat_toNat,
    BitVec.ofNat_toNat, BitVec.setWidth_eq]

/-- Settles O21: B is `I[9:7]`, C is `I[12:10]`. -/
theorem writeMemFormat : Obligations.WriteMemFormat := by
  intro b0 b1 rest htag
  have hfields : instrOfInt .writeMem (instrInt [b0, b1]) = _ :=
    instrOfInt_eq_of_slices (instrInt_slice_7_3 b0 b1 []) (instrInt_slice_10_3 b0 b1 [])
  rw [decode_of_tag (op := .writeMem) htag (Nat.le_add_left 2 _)]
  simp only [Op.width, List.take_succ_cons, List.take_zero, hfields, instrOfFields, regIdx_ofNat_toNat]

/-- Settles O22: B is `I[9:7]`, C is `I[41:10]`. -/
theorem popcntFormat : Obligations.PopcntFormat := by
  intro b0 b1 b2 b3 b4 b5 rest htag
  have hfields : instrOfInt .popcnt (instrInt [b0, b1, b2, b3, b4, b5]) = _ :=
    instrOfInt_eq_of_slices (instrInt_slice_7_3 b0 b1 _) (instrInt_slice_10_32 b0 b1 b2 b3 b4 b5 [])
  rw [decode_of_tag (op := .popcnt) htag (Nat.le_add_left 6 _)]
  simp only [Op.width, List.take_succ_cons, List.take_zero, hfields, instrOfFields, regIdx_ofNat_toNat,
    BitVec.ofNat_toNat, BitVec.setWidth_eq]

/-- Settles O30: a decoded instruction has its opcode's tag in the first byte and its opcode's width (R71, R73). -/
theorem lengthIsFixedByTheFirstByte : Obligations.LengthIsFixedByTheFirstByte := by
  intro first rest i w h
  obtain ⟨_, _, op, hbytes, htag, hw, _⟩ := decode_eq_instr h
  obtain ⟨rfl, rfl⟩ := List.cons.inj hbytes
  have htagNat : (first.extractLsb' 0 7).toNat = op.tag.toNat := congrArg BitVec.toNat htag
  rw [htagNat, hw]
  cases op with
  | loadConst => exact .inl ⟨rfl, rfl⟩
  | readMem => exact .inr (.inl ⟨rfl, rfl⟩)
  | writeMem => exact .inr (.inr (.inl ⟨rfl, rfl⟩))
  | popcnt => exact .inr (.inr (.inr ⟨rfl, rfl⟩))

end Sys2Proof
end

section
/-! The instruction integer as a sum of bytes (R62), and the encoder's integer and width (R69, R87). -/

namespace Sys2Proof

/-- The instruction integer as the little-endian sum. -/
theorem instrInt_eq_sum (bytes : List Byte) :
    instrInt bytes = ∑ k : Fin bytes.length, (bytes[k.val].toNat <<< (8 * k.val)) := by
  induction bytes with
  | nil => rfl
  | cons b bs ih =>
    have hshift : ∀ v k : Nat, v <<< (8 * (k + 1)) = 256 * v <<< (8 * k) := fun v k => by
      rw [Nat.shiftLeft_eq, Nat.shiftLeft_eq, Nat.mul_add, Nat.pow_add]
      ring
    rw [instrInt_cons, ih, Finset.mul_sum]
    exact ((Fin.sum_univ_succ _).trans (by simp [hshift])).symm

/-- Dropping the low `k` bytes of the instruction integer leaves the integer of the bytes after them. -/
theorem instrInt_shiftRight (bytes : List Byte) (k : Nat) : instrInt bytes >>> (8 * k) = instrInt (bytes.drop k) := by
  induction k generalizing bytes with
  | zero => rfl
  | succ k ih =>
    cases bytes with
    | nil => simp
    | cons b bs =>
      have hfirst : instrInt (b :: bs) >>> 8 = instrInt bs := by
        have := b.isLt
        rw [instrInt_cons, Nat.shiftRight_eq_div_pow]
        omega
      rw [Nat.mul_succ, Nat.add_comm, Nat.shiftRight_add, hfirst, ih, List.drop_succ_cons]

/-- Settles O23: the sum, and byte `k` as the lowest byte of what is left after dropping `k` bytes. -/
theorem instructionIntegerIsLittleEndian : Obligations.InstructionIntegerIsLittleEndian := by
  intro bytes
  refine ⟨instrInt_eq_sum bytes, fun k h => ?_⟩
  have hb := bytes[k].isLt
  rw [instrInt_shiftRight, List.drop_eq_getElem_cons h, instrInt_cons]
  omega

/-- Each field value of an instruction fits its field (R64 to R67). -/
theorem fields_fit (i : Instr) : i.fieldB < 2 ^ i.op.widthB ∧ i.fieldC < 2 ^ i.op.widthC := by
  cases i with
  | loadConst rd imm24 => exact Laws.FieldsFit.loadConst rd imm24
  | readMem addr rd => exact Laws.FieldsFit.readMem addr rd
  | writeMem rs raddr => exact Laws.FieldsFit.writeMem rs raddr
  | popcnt rd addr => exact Laws.FieldsFit.popcnt rd addr

/-- The encoder sets no bit above field C (R69). -/
theorem encodeInt_lt (i : Instr) : encodeInt i < 2 ^ (7 + i.op.widthB + i.op.widthC) := by
  obtain ⟨hb, hc⟩ := fields_fit i
  have hA : i.op.tag.toNat < 2 ^ (7 + i.op.widthB + i.op.widthC) :=
    i.op.tag.isLt.trans_le (Nat.pow_le_pow_right (by decide) (by omega))
  have hB : i.fieldB <<< 7 < 2 ^ (7 + i.op.widthB + i.op.widthC) :=
    (Nat.shiftLeft_lt hb).trans_le (Nat.pow_le_pow_right (by decide) (by omega))
  have hC : i.fieldC <<< (7 + i.op.widthB) < 2 ^ (7 + i.op.widthB + i.op.widthC) :=
    (Nat.shiftLeft_lt hc).trans_le (Nat.pow_le_pow_right (by decide) (by omega))
  exact Nat.or_lt_two_pow (Nat.or_lt_two_pow hA hB) hC

/-- The tag and the two fields lie within the instruction's bytes (R64 to R67). -/
theorem Op.fields_le_width (op : Op) : 2 ^ (7 + op.widthB + op.widthC) ≤ 256 ^ op.width := by
  cases op <;> decide

/-- The encoding has the table's width, whatever the operands (R87). -/
@[simp] theorem encode_length (i : Instr) : (encode i).length = i.width := bytesLE_length _ _

/-- The encoding is the encoder's integer written little-endian: its width cuts nothing off (R87). -/
@[simp] theorem instrInt_encode (i : Instr) : instrInt (encode i) = encodeInt i := by
  rw [encode, instrInt_bytesLE]
  exact Nat.mod_eq_of_lt ((encodeInt_lt i).trans_le i.op.fields_le_width)

/-- Settles O24: width and integer of any encoding, with each opcode's tag and field positions. -/
theorem encodingIsTagThenFields : Obligations.EncodingIsTagThenFields :=
  ⟨fun rd c => ⟨encode_length _, instrInt_encode (.loadConst rd c)⟩,
    fun a rd => ⟨encode_length _, instrInt_encode (.readMem a rd)⟩,
    fun rs raddr => ⟨encode_length _, instrInt_encode (.writeMem rs raddr)⟩,
    fun rd a => ⟨encode_length _, instrInt_encode (.popcnt rd a)⟩⟩

end Sys2Proof
end

section
/-! The step as a whole (30_encoding.md, R72, R77 to R80): which fetch leads to which outcome, where a run halts, and what a
step depends on. -/

namespace Sys2Proof.Machine

/-! Legal and illegal tags (R72, R75). -/

/-- READ_MEM as a checked access (R110). -/
theorem exec_readMem (a : Word) (rd : RegIdx) (s : State) :
    exec (.readMem a rd) s =
      checkedAccess .memoryReadOutOfBounds a s fun n => (s.writeReg rd (s.readCell n)).retire 6 := rfl

/-- WRITE_MEM as a checked access (R115). -/
theorem exec_writeMem (rs raddr : RegIdx) (s : State) :
    exec (.writeMem rs raddr) s =
      checkedAccess .memoryWriteOutOfBounds (s.readReg raddr) s fun n => (s.writeCell n (s.readReg rs)).retire 2 := rfl

/-- POPCNT as a checked access (R131; D4, log 5). -/
theorem exec_popcnt (rd : RegIdx) (a : Word) (s : State) :
    exec (.popcnt rd a) s =
      checkedAccess .memoryPopcntOutOfBounds a s fun n =>
        ((s.writeCell n (popcountWord (s.readCell n))).writeReg rd (popcountWord (s.readCell n))).retire 6 := rfl

/-- Every checked access answers a next state. -/
theorem checkedAccess_total (kind : FaultKind) (a : Word) (s : State) (effect : Nat → State) :
    ∃ t, checkedAccess kind a s effect = .next t := by
  rcases checkedAccess_cases kind a s effect with ⟨_, e⟩ | ⟨_, e⟩ <;> exact ⟨_, e⟩

/-- Every meaning answers a next state (R77). -/
theorem exec_total (i : Instr) (s : State) : ∃ t, exec i s = .next t := by
  cases i with
  | loadConst rd c => exact ⟨_, exec_loadConst rd c s⟩
  | readMem a rd => exact exec_readMem a rd s ▸ checkedAccess_total _ a s _
  | writeMem rs raddr => exact exec_writeMem rs raddr s ▸ checkedAccess_total _ _ s _
  | popcnt rd a => exact exec_popcnt rd a s ▸ checkedAccess_total _ a s _

/-- An instruction that is executed never takes a decode fault. -/
theorem exec_not_unknownOpcode {i : Instr} {s t : State} (hrun : s.runState ≠ .faulted) (h : exec i s = .next t) :
    ¬ (t.runState = .faulted ∧ t.faultKind = .unknownOpcode) := by
  rintro ⟨hfaulted, hkind⟩
  rcases exec_next_cases h with ⟨u, rfl, _, _, hu, _⟩ | ⟨k, a, _, hk, _, rfl⟩
  · rw [State.retire_runState, hu] at hfaulted
    split at hfaulted
    · cases hfaulted
    · exact hrun hfaulted
  · exact hk hkind

/-- A fault is taken with the whole record (R143). -/
theorem takesFault_raiseFault (s : State) (kind : FaultKind) (info : Word) :
    takesFault s (s.raiseFault kind info) kind info :=
  ⟨raisesFault_raiseFault s kind info, s.raiseFault_faultPc kind info, s.raiseFault_faultInfo kind info⟩

/-- The legal tags by number (R71). -/
theorem exists_op_tag_iff (t : Tag) :
    (∃ op : Op, op.tag = t) ↔ t.toNat = 10 ∨ t.toNat = 18 ∨ t.toNat = 39 ∨ t.toNat = 54 := by
  have hnum : ∀ op : Op, op.tag = t ↔ t.toNat = op.tag.toNat := fun op => by rw [eq_comm, BitVec.toNat_inj]
  constructor
  · rintro ⟨op, h⟩
    rw [(hnum op).1 h]
    cases op <;> decide
  · rintro (h | h | h | h)
    · exact ⟨.loadConst, (hnum _).2 h⟩
    · exact ⟨.popcnt, (hnum _).2 h⟩
    · exact ⟨.writeMem, (hnum _).2 h⟩
    · exact ⟨.readMem, (hnum _).2 h⟩

/-- At a legal tag: the instruction is fetched when its `W` bytes are there, and the step never takes UnknownOpcode (R72). -/
theorem step_at_legal_tag {s : State} {first : Byte} {rest : List Byte} {op : Op} (hrun : s.runState = .running)
    (hbytes : s.program.drop s.pc.toNat = first :: rest) (htag : op.tag = first.extractLsb' 0 7) :
    (op.width ≤ (first :: rest).length → ∃ i, s.fetch = .instr i op.width ∧ i.op = op) ∧
      ∃ t, step s = .next t ∧ ¬ (t.runState = .faulted ∧ t.faultKind = .unknownOpcode) := by
  have hfull : op.width ≤ (first :: rest).length → ∃ i, s.fetch = .instr i op.width ∧ i.op = op := fun hlen =>
    ⟨_, by rw [State.fetch, hbytes, decode_of_tag htag.symm hlen], instrOfInt_op op _⟩
  refine ⟨hfull, ?_⟩
  by_cases hlen : op.width ≤ (first :: rest).length
  · obtain ⟨i, hfetch, _⟩ := hfull hlen
    obtain ⟨t, ht⟩ := exec_total i s
    exact ⟨t, (step_of_fetch_instr hrun hfetch).trans ht, exec_not_unknownOpcode (by simp [hrun]) ht⟩
  · have hfetch : s.fetch = .truncated (tagOf first) (first :: rest).length := by
      rw [State.fetch, hbytes, decode_truncated_of_tag htag.symm (Nat.lt_of_not_le hlen)]
    exact ⟨_, step_of_fetch_truncated hrun hfetch, by simp⟩

/-- At an illegal tag the step takes UnknownOpcode, with the tag as info (R72). -/
theorem step_at_illegal_tag {s : State} {first : Byte} {rest : List Byte} (hrun : s.runState = .running)
    (hbytes : s.program.drop s.pc.toNat = first :: rest) (htag : ∀ op : Op, op.tag ≠ first.extractLsb' 0 7) :
    step s = .next (s.raiseFault .unknownOpcode ((first.extractLsb' 0 7).setWidth 32)) := by
  have hfetch : s.fetch = .unknownOpcode (tagOf first) := by
    rw [State.fetch, hbytes, decode_unknown_of_tag htag]
  exact step_of_fetch_unknown hrun hfetch

/-- Settles O29: the count of illegal tags, then the step at a legal and at an illegal tag. -/
theorem illegalTagsAndOnlyThoseAreUnknown : Obligations.IllegalTagsAndOnlyThoseAreUnknown := by
  refine ⟨rfl, fun s first rest hrun hbytes => ?_⟩
  split
  case isTrue hlegal =>
    obtain ⟨op, htag⟩ := (exists_op_tag_iff _).2 hlegal
    exact ⟨op, htag, step_at_legal_tag hrun hbytes htag⟩
  case isFalse hillegal =>
    have htag : ∀ op : Op, op.tag ≠ first.extractLsb' 0 7 := fun op h => hillegal ((exists_op_tag_iff _).1 ⟨op, h⟩)
    exact ⟨_, step_at_illegal_tag hrun hbytes htag, takesFault_raiseFault s _ _⟩

/-! Where a run halts (R78). -/

/-- A step's whole effect on the control state: it retires a fetched instruction, or it takes a fault. -/
theorem step_retires_or_faults {s t : State} (h : step s = .next t) :
    (∃ i w u, s.fetch = .instr i w ∧ t = State.retire u w ∧ u.program = s.program ∧ u.pc = s.pc ∧
        u.runState = .running) ∨
      ∃ kind info, t = s.raiseFault kind info := by
  obtain ⟨hrun, ⟨i, w, hfetch, hexec⟩ | ⟨tag, _, rfl⟩ | ⟨tag, n, _, rfl⟩⟩ := step_cases h
  · rcases exec_next_cases hexec with ⟨u, rfl, hprog, hpc, hu, _⟩ | ⟨k, a, _, _, _, rfl⟩
    · obtain ⟨rfl, _⟩ := fetch_instr_width hfetch
      exact .inl ⟨i, _, u, hfetch, rfl, hprog, hpc, hu.trans hrun⟩
    · exact .inr ⟨k, a, rfl⟩
  · exact .inr ⟨_, _, rfl⟩
  · exact .inr ⟨_, _, rfl⟩

/-- Within a stream of a length the host may supply, adding an instruction's width to `pc` does not wrap (R29, R30, D2). -/
theorem pc_add_width_toNat {pc : Word} {w L : Nat} (hL : L ≤ Config.maxProgramLength) (hw : pc.toNat + w ≤ L) :
    (pc + BitVec.ofNat 32 w).toNat = pc.toNat + w := by
  have hmax : L ≤ 4294967295 := hL
  rw [BitVec.toNat_add, BitVec.toNat_ofNat]
  omega

/-- Settles O46: a retired instruction halts at the end of the stream and only there; a fault leaves `pc` before it. -/
theorem haltsExactlyAtTheEndOfTheStream : Obligations.HaltsExactlyAtTheEndOfTheStream := by
  refine ⟨?step, fun program => ?reset⟩
  case step =>
    rintro s t ⟨hL, hrunning, _, _⟩ h
    have hpcL : s.pc.toNat < s.program.length := (hrunning (step_cases h).1).1
    rcases step_retires_or_faults h with ⟨i, w, u, hfetch, rfl, hprog, hpc, hu⟩ | ⟨kind, info, rfl⟩
    · obtain ⟨_, hw⟩ := fetch_instr_width hfetch
      have hnext := pc_add_width_toNat hL hw
      simp only [State.retire_pc, State.retire_program, State.retire_runState, hprog, hpc, hu, hnext]
      refine ⟨hw, ?_⟩
      by_cases hend : s.pc.toNat + w = s.program.length <;> simp [hend]
    · exact ⟨hpcL.le, by simp⟩
  case reset =>
    rw [State.resetWith_runState]
    split <;> simp [*]

/-! What a step depends on (R80). -/

/-- Two states that differ in the fault record at most. -/
structure SameButRecord (s t : State) : Prop where
  program : t.program = s.program
  pc : t.pc = s.pc
  x : t.x = s.x
  mem : t.mem = s.mem
  runState : t.runState = s.runState

/-- Two states that agree, and whose fault records agree too if they are faulted. -/
def AgreeAfterStep (s t : State) : Prop := SameButRecord s t ∧ (s.runState = .faulted → sameRecord s t)

section SameButRecord
variable {s t : State}

theorem SameButRecord.readReg (h : SameButRecord s t) (r : RegIdx) : t.readReg r = s.readReg r := by
  simp only [State.readReg, h.x]

theorem SameButRecord.readCell (h : SameButRecord s t) (a : Nat) : t.readCell a = s.readCell a := by
  simp only [State.readCell, h.mem]

theorem SameButRecord.fetch (h : SameButRecord s t) : t.fetch = s.fetch := by
  simp only [State.fetch, h.program, h.pc]

theorem SameButRecord.writeReg (h : SameButRecord s t) (r : RegIdx) (v : Word) :
    SameButRecord (s.writeReg r v) (t.writeReg r v) :=
  ⟨h.program, h.pc, by simp only [State.writeReg_x, h.x], h.mem, h.runState⟩

theorem SameButRecord.writeCell (h : SameButRecord s t) (a : Nat) (v : Word) :
    SameButRecord (s.writeCell a v) (t.writeCell a v) :=
  ⟨h.program, h.pc, h.x, by simp only [State.writeCell_mem, h.mem], h.runState⟩

/-- Taking the same fault makes the records agree as well. -/
theorem SameButRecord.raiseFault (h : SameButRecord s t) (kind : FaultKind) (info : Word) :
    AgreeAfterStep (s.raiseFault kind info) (t.raiseFault kind info) :=
  ⟨⟨h.program, h.pc, h.x, h.mem, rfl⟩, fun _ => ⟨rfl, h.pc, rfl⟩⟩

/-- An instruction that retires in `Running` is not faulted, so its record does not matter. -/
theorem SameButRecord.retire (h : SameButRecord s t) (hrun : s.runState = .running) (w : Nat) :
    AgreeAfterStep (s.retire w) (t.retire w) := by
  refine ⟨⟨h.program, ?_, h.x, h.mem, ?_⟩, fun hfaulted => ?_⟩
  · rw [State.retire_pc, State.retire_pc, h.pc]
  · rw [State.retire_runState, State.retire_runState, h.pc, h.program, h.runState]
  · rw [State.retire_runState, hrun] at hfaulted
    split at hfaulted <;> cases hfaulted

/-- A checked access at one address, with effects that agree. -/
theorem SameButRecord.checkedAccess (h : SameButRecord s t) (kind : FaultKind) (a : Word) {f g : Nat → State}
    (heffect : ∀ n, AgreeAfterStep (f n) (g n)) :
    ∃ s' t', checkedAccess kind a s f = .next s' ∧ checkedAccess kind a t g = .next t' ∧ AgreeAfterStep s' t' := by
  rcases Nat.lt_or_ge a.toNat 1024 with ha | ha
  · exact ⟨_, _, checkedAccess_of_lt ha kind s f, checkedAccess_of_lt ha kind t g, heffect _⟩
  · exact ⟨_, _, checkedAccess_of_ge ha kind s f, checkedAccess_of_ge ha kind t g, h.raiseFault kind a⟩

/-- No meaning reads the fault record. -/
theorem SameButRecord.exec (h : SameButRecord s t) (hrun : s.runState = .running) (i : Instr) :
    ∃ s' t', exec i s = .next s' ∧ exec i t = .next t' ∧ AgreeAfterStep s' t' := by
  cases i with
  | loadConst rd c => exact ⟨_, _, rfl, rfl, (h.writeReg rd (zext32 c)).retire hrun 5⟩
  | readMem a rd =>
    simp only [exec_readMem, h.readCell]
    exact h.checkedAccess _ a fun n => (h.writeReg rd (s.readCell n)).retire hrun 6
  | writeMem rs raddr =>
    simp only [exec_writeMem, h.readReg]
    exact h.checkedAccess _ _ fun n => (h.writeCell n (s.readReg rs)).retire hrun 2
  | popcnt rd a =>
    simp only [exec_popcnt, h.readCell]
    exact h.checkedAccess _ a fun n => ((h.writeCell n _).writeReg rd _).retire hrun 6

/-- No step reads the fault record. -/
theorem SameButRecord.step (h : SameButRecord s t) {s' : State} (hs : step s = .next s') :
    ∃ t', step t = .next t' ∧ AgreeAfterStep s' t' := by
  obtain ⟨hrun, hcases⟩ := step_cases hs
  have hrunT : t.runState = .running := h.runState.trans hrun
  rcases hcases with ⟨i, w, hfetch, hexec⟩ | ⟨tag, hfetch, rfl⟩ | ⟨tag, n, hfetch, rfl⟩
  · obtain ⟨s'', t', hs'', ht', hagree⟩ := h.exec hrun i
    obtain rfl : s'' = s' := Host.Outcome.next.inj (hs''.symm.trans hexec)
    exact ⟨t', (step_of_fetch_instr hrunT (h.fetch.trans hfetch)).trans ht', hagree⟩
  · exact ⟨_, step_of_fetch_unknown hrunT (h.fetch.trans hfetch), h.raiseFault _ _⟩
  · exact ⟨_, step_of_fetch_truncated hrunT (h.fetch.trans hfetch), h.raiseFault _ _⟩

end SameButRecord

/-! Runs of one stream (R79, R80). -/

/-- No step leaves a final state (R32, R77). -/
theorem step_ne_next_of_final {s : State} (h : s.final) (t : State) : step s ≠ .next t := by
  intro hs
  have hrun := (step_cases hs).1
  rcases h with h | h <;> rw [h] at hrun <;> cases hrun

/-- The first step of a longer run. -/
theorem run_succ_eq_next {n : Nat} {s u : State} (h : run (n + 1) s = .next u) :
    ∃ t, step s = .next t ∧ run n t = .next u := by
  cases hs : step s with
  | next t => exact ⟨t, rfl, run_succ_of_next hs n ▸ h⟩
  | fault f => simp [run, hs] at h
  | refused r => simp [run, hs] at h

/-- Two runs from one state that both end, end in the same state. -/
theorem run_final_unique {n m : Nat} {s t u : State} (ht : run n s = .next t) (hu : run m s = .next u) (htf : t.final)
    (huf : u.final) : t = u := by
  induction n generalizing m s with
  | zero =>
    obtain rfl : s = t := Host.Outcome.next.inj ht
    cases m with
    | zero => exact Host.Outcome.next.inj hu
    | succ m =>
      obtain ⟨s', hs', _⟩ := run_succ_eq_next hu
      exact absurd hs' (step_ne_next_of_final htf s')
  | succ n ih =>
    obtain ⟨s', hs', ht'⟩ := run_succ_eq_next ht
    cases m with
    | zero =>
      obtain rfl : s = u := Host.Outcome.next.inj hu
      exact absurd hs' (step_ne_next_of_final huf s')
    | succ m => exact ih ht' (run_succ_of_next hs' m ▸ hu)

/-- Settles O48: no step reads the fault record, and two ended runs of one stream are the same run. -/
theorem stepDependsOnlyOnProgramPcRegistersMemory : Obligations.StepDependsOnlyOnProgramPcRegistersMemory := by
  refine ⟨?step, fun program n m t u => run_final_unique⟩
  case step =>
    intro s t s' hs ht hprogram hpc hx hmem hstep
    have h : SameButRecord s t := ⟨hprogram.symm, hpc.symm, hx.symm, hmem.symm, ht.trans hs.symm⟩
    obtain ⟨t', ht', hagree, hrecord⟩ := h.step hstep
    exact ⟨t', ht', hagree.program, hagree.pc, hagree.x, hagree.mem, hagree.runState, hrecord⟩

end Sys2Proof.Machine
end

section
/-! The translator's lines, in order (30_encoding.md, R83, R88 to R90). -/

namespace Sys2Proof.Machine

/-- A malformed line aborts the translation, whatever follows (R90). -/
theorem translateInstrs_cons_of_error {line : Text} {e : AsmError} (h : translateLine line = .error e) (rest : List Text) :
    translateInstrs (line :: rest) = .error e := by
  simp only [translateInstrs, h]

/-- A line without an error puts its instruction, if it holds one, in front of those of the lines after it (R83, R88). -/
theorem translateInstrs_cons_of_ok {line : Text} {o : Option Instr} (h : translateLine line = .ok o) (rest : List Text) :
    translateInstrs (line :: rest) = (translateInstrs rest).map (o.toList ++ ·) := by
  cases o with
  | none =>
    simp only [translateInstrs, h]
    cases translateInstrs rest <;> rfl
  | some i => simp only [translateInstrs, h, Option.toList_some, List.singleton_append]

/-- What a successful translation says of its first line and of the others. -/
theorem translateInstrs_cons_eq_ok {line : Text} {rest : List Text} {instrs : List Instr}
    (h : translateInstrs (line :: rest) = .ok instrs) :
    ∃ o more, translateLine line = .ok o ∧ translateInstrs rest = .ok more ∧ instrs = o.toList ++ more := by
  cases hline : translateLine line with
  | error e => simp [translateInstrs_cons_of_error hline] at h
  | ok o =>
    rw [translateInstrs_cons_of_ok hline] at h
    cases hrest : translateInstrs rest with
    | error e => simp [hrest, Except.map] at h
    | ok more => exact ⟨o, more, rfl, rfl, by simpa [hrest, Except.map, eq_comm] using h⟩

/-- After good lines the translation goes on with the lines that follow (R88). -/
theorem translateInstrs_append_of_ok {good : List Text} {instrs : List Instr} (h : translateInstrs good = .ok instrs)
    (more : List Text) : translateInstrs (good ++ more) = (translateInstrs more).map (instrs ++ ·) := by
  induction good generalizing instrs with
  | nil =>
    obtain rfl : [] = instrs := Except.ok.inj h
    cases hmore : translateInstrs more <;> simp [hmore, Except.map]
  | cons line rest ih =>
    obtain ⟨o, tail, hline, hrest, rfl⟩ := translateInstrs_cons_eq_ok h
    rw [List.cons_append, translateInstrs_cons_of_ok hline, ih hrest]
    cases translateInstrs more <;> simp [Except.map]

/-- A successful translation is one answer per line, in line order, skipped lines adding nothing (R83, R88). -/
theorem translateInstrs_eq_ok {lines : List Text} {instrs : List Instr} (h : translateInstrs lines = .ok instrs) :
    ∃ is : List (Option Instr), lines.map translateLine = is.map Except.ok ∧ instrs = is.filterMap id := by
  induction lines generalizing instrs with
  | nil =>
    obtain rfl : [] = instrs := Except.ok.inj h
    exact ⟨[], rfl, rfl⟩
  | cons line rest ih =>
    obtain ⟨o, tail, hline, hrest, rfl⟩ := translateInstrs_cons_eq_ok h
    obtain ⟨is, hmap, rfl⟩ := ih hrest
    refine ⟨o :: is, by rw [List.map_cons, List.map_cons, hline, hmap], ?_⟩
    cases o <;> rfl

/-- The stream and the log come from the same instructions (R88, R89). -/
theorem assemble_eq_ok_iff {lines : List Text} {bytes : List Byte} {log : List LogRecord} :
    assemble lines = .ok (bytes, log) ↔
      ∃ instrs, translateInstrs lines = .ok instrs ∧ bytes = instrs.flatMap encode ∧ log = instrs.map logRecord := by
  unfold assemble
  cases translateInstrs lines <;> simp [Except.map, eq_comm]

/-- Settles O56: one answer per line, and the translation of appended programs is appended. -/
theorem streamIsTheConcatenatedEncodings : Obligations.StreamIsTheConcatenatedEncodings := by
  refine ⟨?lines, ?append⟩
  case lines =>
    intro lines bytes log h
    obtain ⟨instrs, hinstrs, rfl, rfl⟩ := assemble_eq_ok_iff.1 h
    obtain ⟨is, hmap, rfl⟩ := translateInstrs_eq_ok hinstrs
    exact ⟨is, hmap, rfl, rfl⟩
  case append =>
    intro lines more b b' l l' h h'
    obtain ⟨instrs, hinstrs, rfl, rfl⟩ := assemble_eq_ok_iff.1 h
    obtain ⟨instrs', hinstrs', rfl, rfl⟩ := assemble_eq_ok_iff.1 h'
    refine assemble_eq_ok_iff.2 ⟨instrs ++ instrs', ?_, List.flatMap_append.symm, List.map_append.symm⟩
    rw [translateInstrs_append_of_ok hinstrs, hinstrs']
    rfl

/-- Settles O57: after the good lines the translation continues at the malformed one, whose error it answers. -/
theorem firstMalformedLineAborts : Obligations.FirstMalformedLineAborts := by
  rintro good line rest ⟨bytes, log⟩ e hgood hline
  obtain ⟨instrs, hinstrs, _⟩ := assemble_eq_ok_iff.1 hgood
  rw [assemble, translateInstrs_append_of_ok hinstrs, translateInstrs_cons_of_error hline]
  rfl

end Sys2Proof.Machine
end

section
/-! LOAD_CONST from the bytes at `pc` (40_load_const.md, R100): the constant is loaded, or the instruction is truncated. -/

namespace Sys2Proof.Machine

/-- A legal tag with fewer than its `W` bytes at `pc` takes TruncatedInstruction and changes nothing else (R76, R144). -/
theorem step_truncated_of_tag {s : State} {first : Byte} {rest : List Byte} {op : Op} (hrun : s.runState = .running)
    (hbytes : s.program.drop s.pc.toNat = first :: rest) (htag : first.extractLsb' 0 7 = op.tag)
    (hlen : (first :: rest).length < op.width) :
    ∃ t, step s = .next t ∧ raisesFault s t .truncatedInstruction := by
  have hfetch : s.fetch = .truncated (tagOf first) (first :: rest).length := by
    rw [State.fetch, hbytes, decode_truncated_of_tag htag hlen]
  exact ⟨_, step_of_fetch_truncated hrun hfetch, raisesFault_raiseFault s _ _⟩

/-- Zero extension of the constant field keeps its value (R9, R68). -/
@[simp] theorem zext32_toNat (c : Imm24) : (zext32 c).toNat = c.toNat :=
  BitVec.toNat_setWidth_of_le (by decide)

/-- Retiring after a register write advances `pc` and decides `Halted` as retiring alone does (R30, R77). -/
theorem retiresTo_writeReg_retire (s : State) (rd : RegIdx) (v : Word) (w : Nat) :
    retiresTo s ((s.writeReg rd v).retire w) w :=
  ⟨rfl, rfl, rfl, rfl, rfl, rfl⟩

/-- The step at five bytes with tag 10 (R64, R100): what stands in `I[33:10]` goes to the register `I[9:7]`. -/
theorem step_loadConst_bytes {s : State} {b0 b1 b2 b3 b4 : Byte} {rest : List Byte} (hrun : s.runState = .running)
    (hbytes : s.program.drop s.pc.toNat = b0 :: b1 :: b2 :: b3 :: b4 :: rest) (htag : b0.extractLsb' 0 7 = 10#7) :
    step s = .next ((s.writeReg (b1.extractLsb' 0 2 ++ b0.extractLsb' 7 1).toFin
      (zext32 (b4.extractLsb' 0 2 ++ b3 ++ b2 ++ b1.extractLsb' 2 6))).retire 5) := by
  have hfetch := loadConstFormat b0 b1 b2 b3 b4 rest htag
  rw [← hbytes] at hfetch
  exact (step_of_fetch_instr hrun hfetch).trans (exec_loadConst _ _ s)

/-- Settles O15: with five bytes there the register write retires; with fewer the decoder stops the step. -/
theorem loadConstFromBytes : Obligations.LoadConstFromBytes := by
  intro s b0 tail hrun hbytes htag
  refine ⟨?loads, ?truncated⟩
  case loads =>
    rintro b1 b2 b3 b4 rest rfl
    refine ⟨_, step_loadConst_bytes hrun hbytes htag, fun r => ?register, fun _ => rfl,
      retiresTo_writeReg_retire s _ _ 5⟩
    rw [State.readReg_retire, State.readReg_writeReg, apply_ite BitVec.toNat, zext32_toNat]
    simp only [Fin.ext_iff, BitVec.val_toFin]
  case truncated =>
    intro hlen
    exact step_truncated_of_tag (op := .loadConst) hrun hbytes htag (Nat.succ_lt_succ hlen)

end Sys2Proof.Machine
end

section
/-! READ_MEM and WRITE_MEM from the bytes at `pc` (41_memory_access.md, R110, R115): the access is executed, or the instruction
is truncated. -/

namespace Sys2Proof.Machine

/-- Retiring after a cell write advances `pc` and decides `Halted` as retiring alone does (R30, R77). -/
theorem retiresTo_writeCell_retire (s : State) (a : Nat) (v : Word) (w : Nat) :
    retiresTo s ((s.writeCell a v).retire w) w :=
  ⟨rfl, rfl, rfl, rfl, rfl, rfl⟩

/-- The step at six bytes with tag 54 (R65, R110): a READ_MEM of the cell `I[38:7]` into the register `I[41:39]`. -/
theorem step_readMem_bytes {s : State} {b0 b1 b2 b3 b4 b5 : Byte} {rest : List Byte} (hrun : s.runState = .running)
    (hbytes : s.program.drop s.pc.toNat = b0 :: b1 :: b2 :: b3 :: b4 :: b5 :: rest) (htag : b0.extractLsb' 0 7 = 54#7) :
    step s = exec (.readMem (b4.extractLsb' 0 7 ++ b3 ++ b2 ++ b1 ++ b0.extractLsb' 7 1)
      (b5.extractLsb' 0 2 ++ b4.extractLsb' 7 1).toFin) s := by
  have hfetch := readMemFormat b0 b1 b2 b3 b4 b5 rest htag
  rw [← hbytes] at hfetch
  exact step_of_fetch_instr hrun hfetch

/-- The step at two bytes with tag 39 (R66, R115): a WRITE_MEM of the register `I[9:7]` at the address in `I[12:10]`. -/
theorem step_writeMem_bytes {s : State} {b0 b1 : Byte} {rest : List Byte} (hrun : s.runState = .running)
    (hbytes : s.program.drop s.pc.toNat = b0 :: b1 :: rest) (htag : b0.extractLsb' 0 7 = 39#7) :
    step s = exec (.writeMem (b1.extractLsb' 0 2 ++ b0.extractLsb' 7 1).toFin (b1.extractLsb' 2 3).toFin) s := by
  have hfetch := writeMemFormat b0 b1 rest htag
  rw [← hbytes] at hfetch
  exact step_of_fetch_instr hrun hfetch

/-- Settles O16: with six bytes there READ_MEM is executed, and the address decides between the register write and the
fault; with fewer the decoder stops the step. -/
theorem readMemFromBytes : Obligations.ReadMemFromBytes := by
  intro s b0 tail hrun hbytes htag
  refine ⟨?full, ?truncated⟩
  case full =>
    rintro b1 b2 b3 b4 b5 rest a rfl ha
    have hstep := step_readMem_bytes hrun hbytes htag
    rw [← ha] at hstep
    rcases exec_readMem_cases a (b5.extractLsb' 0 2 ++ b4.extractLsb' 7 1).toFin s with ⟨hlt, hexec⟩ | ⟨hge, hexec⟩
    · refine ⟨_, hstep.trans hexec, ?_⟩
      rw [if_pos hlt]
      refine ⟨fun r => ?_, fun _ => rfl, retiresTo_writeReg_retire s _ _ 6⟩
      simp only [State.readReg_retire, State.readReg_writeReg, Fin.ext_iff, BitVec.val_toFin]
    · refine ⟨_, hstep.trans hexec, ?_⟩
      rw [if_neg (Nat.not_lt.2 hge)]
      exact ⟨raisesFault_raiseFault s _ a, s.raiseFault_faultInfo _ a⟩
  case truncated =>
    intro hlen
    exact step_truncated_of_tag (op := .readMem) hrun hbytes htag (Nat.succ_lt_succ hlen)

/-- Settles O17: with two bytes there WRITE_MEM is executed, and the value of the address register decides between the cell
write and the fault; with one byte the decoder stops the step. -/
theorem writeMemFromBytes : Obligations.WriteMemFromBytes := by
  intro s b0 tail hrun hwf hbytes htag
  refine ⟨?full, ?truncated⟩
  case full =>
    rintro b1 rest rs raddr rfl hrs hraddr
    have hstep := step_writeMem_bytes hrun hbytes htag
    obtain rfl : rs = (b1.extractLsb' 0 2 ++ b0.extractLsb' 7 1).toFin := Fin.ext hrs
    obtain rfl : raddr = (b1.extractLsb' 2 3).toFin := Fin.ext hraddr
    rcases exec_writeMem_cases _ _ s with ⟨hlt, hexec⟩ | ⟨hge, hexec⟩
    · refine ⟨_, hstep.trans hexec, ?_⟩
      rw [if_pos hlt]
      exact ⟨State.readCell_writeCell hwf _ _, fun _ => rfl, retiresTo_writeCell_retire s _ _ 2⟩
    · refine ⟨_, hstep.trans hexec, ?_⟩
      rw [if_neg (Nat.not_lt.2 hge)]
      exact ⟨raisesFault_raiseFault s _ _, s.raiseFault_faultInfo _ _⟩
  case truncated =>
    rintro rfl
    exact step_truncated_of_tag (op := .writeMem) hrun hbytes htag (Nat.lt_succ_self 1)

end Sys2Proof.Machine
end

section
/-! PROOFS about the population count (42_popcnt.md): it counts the one bits of its operand, from which its range and the
exactness of the counter's 32-bit output follow. -/

namespace Sys2Proof.Machine

/-- R130's sum over the bit positions, from the model's list of them. -/
theorem popcount_eq_sum (v : Word) : popcount v = ∑ i : Fin 32, (v.getLsbD i.val).toNat := by
  rw [← Finset.sum_range fun i => (v.getLsbD i).toNat, ← List.toFinset_range, List.sum_toFinset _ List.nodup_range,
    popcount]

/-- A bit adds 1 to the sum exactly when it is set, so the sum counts the set bits. -/
theorem popcount_eq_card (v : Word) :
    popcount v = (Finset.univ.filter fun i : Fin 32 => v.getLsbD i.val = true).card := by
  rw [popcount_eq_sum, Finset.card_filter]
  refine Finset.sum_congr rfl fun i _ => ?_
  cases v.getLsbD i.val <;> rfl

theorem popcount_le (v : Word) : popcount v ≤ 32 :=
  calc popcount v = (Finset.univ.filter fun i : Fin 32 => v.getLsbD i.val = true).card := popcount_eq_card v
    _ ≤ (Finset.univ : Finset (Fin 32)).card := Finset.card_filter_le _ _
    _ = 32 := Finset.card_fin 32

/-- The count never overflows a register (R130). -/
@[simp] theorem popcountWord_toNat (v : Word) : (popcountWord v).toNat = popcount v := by
  have hfits : popcount v < 2 ^ 32 := (popcount_le v).trans_lt (by decide)
  rw [popcountWord, BitVec.toNat_ofNat, Nat.mod_eq_of_lt hfits]

@[simp] theorem popcount_zero : popcount 0#32 = 0 := by
  simp [popcount_eq_card]

/-- Settles O12: the sum of the bits is the number of set bits, which are among 32 positions and so fit a register. -/
theorem popcountCountsTheOneBits : Obligations.PopcountCountsTheOneBits := fun v =>
  ⟨popcount_eq_sum v, popcount_eq_card v, popcount_le v, popcountWord_toNat v, popcount_zero⟩

end Sys2Proof.Machine
end

section
/-! Faults and their taking (60_exceptions.md, R142, R148): which fault each instruction can raise, and what taking one
changes. -/

namespace Sys2Proof.Machine

/-- Retiring never ends a run in failure (R77, R78). -/
theorem State.retire_not_faulted {s : State} (h : s.runState ≠ .faulted) (w : Nat) : (s.retire w).runState ≠ .faulted := by
  rw [State.retire_runState]
  split
  · decide
  · exact h

/-! The fault of each instruction (R142). -/

/-- A checked access that retires on a valid address ends `Faulted` exactly on an invalid one, by its own fault (R49). -/
theorem checkedAccess_retire_faulted_iff (kind : FaultKind) (a : Word) (s : State) {access : Nat → State} {w : Nat}
    (haccess : ∀ n, (access n).runState ≠ .faulted) :
    ∃ t, checkedAccess kind a s (fun n => (access n).retire w) = .next t ∧ (t.runState = .faulted ↔ 1024 ≤ a.toNat) ∧
      (t.runState = .faulted → t.faultKind = kind) := by
  rcases checkedAccess_cases kind a s fun n => (access n).retire w with ⟨hvalid, e⟩ | ⟨hinvalid, e⟩
  · have hretired := State.retire_not_faulted (haccess a.toNat) w
    exact ⟨_, e, iff_of_false hretired (Nat.not_le.2 hvalid), fun hfaulted => absurd hfaulted hretired⟩
  · exact ⟨_, e, iff_of_true (s.raiseFault_runState kind a) hinvalid, fun _ => s.raiseFault_faultKind kind a⟩

/-- Settles O8: each access is one checked access whose effect retires, and a legal tag leaves the decoder only the length
to check. -/
theorem eachInstructionRaisesOnlyItsOwnFault : Obligations.EachInstructionRaisesOnlyItsOwnFault := by
  refine ⟨fun i s hrun => ?executed, fun op first rest htag => ?decoded⟩
  case executed =>
    cases i with
    | loadConst rd c => exact ⟨_, exec_loadConst rd c s, State.retire_not_faulted hrun 5⟩
    | readMem a rd =>
      rw [exec_readMem]
      exact checkedAccess_retire_faulted_iff _ a s fun _ => hrun
    | writeMem rs raddr =>
      rw [exec_writeMem]
      exact checkedAccess_retire_faulted_iff _ _ s fun _ => hrun
    | popcnt rd a =>
      rw [exec_popcnt]
      exact checkedAccess_retire_faulted_iff _ a s fun _ => hrun
  case decoded =>
    split
    case isTrue hshort => rw [decode_truncated_of_tag htag hshort, htag]
    case isFalse hlong => exact ⟨_, decode_of_tag htag (Nat.le_of_not_lt hlong), instrOfInt_op op _⟩

/-! Taking a fault (R143, R148). -/

/-- An instruction that ends `Faulted` did nothing but raise a fault. -/
theorem exec_eq_raiseFault_of_faulted {i : Instr} {s t : State} (hrun : s.runState ≠ .faulted) (h : exec i s = .next t)
    (hfaulted : t.runState = .faulted) : ∃ kind info, kind ≠ FaultKind.none ∧ t = s.raiseFault kind info := by
  rcases exec_next_cases h with ⟨u, rfl, _, _, hu, _⟩ | ⟨kind, info, hkind, _, _, rfl⟩
  · exact absurd hfaulted (State.retire_not_faulted (hu ▸ hrun) _)
  · exact ⟨kind, info, hkind, rfl⟩

/-- A step that ends `Faulted` did nothing but raise a fault, in the decoder or in the instruction. -/
theorem step_eq_raiseFault_of_faulted {s t : State} (h : step s = .next t) (hfaulted : t.runState = .faulted) :
    ∃ kind info, kind ≠ FaultKind.none ∧ t = s.raiseFault kind info := by
  obtain ⟨hrun, ⟨i, w, _, hexec⟩ | ⟨tag, _, rfl⟩ | ⟨tag, n, _, rfl⟩⟩ := step_cases h
  · exact exec_eq_raiseFault_of_faulted (by simp [hrun]) hexec hfaulted
  · exact ⟨_, _, by decide, rfl⟩
  · exact ⟨_, _, by decide, rfl⟩

/-- Settles O47: the step raised a fault and did nothing else, and no step leaves the state it reached. -/
theorem takingAFaultChangesOnlyTheRecord : Obligations.TakingAFaultChangesOnlyTheRecord := by
  intro s t h hfaulted
  obtain ⟨kind, info, hkind, rfl⟩ := step_eq_raiseFault_of_faulted h hfaulted
  exact ⟨rfl, hkind, step_ne_next_of_final (.inr hfaulted)⟩

end Sys2Proof.Machine
end

section
/-! The round trip of decoder and encoder (30_encoding.md, R69, R75, R76, R87, R93). Both directions go through the instruction
integer: what the decoder answers is fixed by the integer of the first `W` bytes, and the encoder's integer is the tag with
the two fields above it. -/

namespace Sys2Proof

/-- The opcode tag as the low 7 bits of the instruction integer (R61). -/
theorem tagOf_eq_iff (first : Byte) (bytes : List Byte) (t : Tag) :
    tagOf first = t ↔ instrInt (first :: bytes) % 2 ^ 7 = t.toNat := by
  rw [← BitVec.toNat_inj, tagOf, toNat_extractLsb'_eq, instrInt_cons]
  omega

/-- The decoder's answer is an instruction exactly when the `W` bytes of an opcode are there and their integer holds its tag;
nothing but those bytes is read (R75, R76). -/
theorem decode_eq_instr_iff {bytes : List Byte} {i : Instr} {w : Nat} :
    decode bytes = .instr i w ↔
      ∃ op : Op, w = op.width ∧ w ≤ bytes.length ∧ instrInt (bytes.take w) % 2 ^ 7 = op.tag.toNat ∧
        i = instrOfInt op (instrInt (bytes.take w)) := by
  constructor
  · intro h
    obtain ⟨first, rest, op, rfl, htag, rfl, hlen, -, hi⟩ := decode_eq_instr h
    refine ⟨op, rfl, hlen, ?_, hi⟩
    obtain ⟨n, hn⟩ := Nat.exists_eq_succ_of_ne_zero op.width_pos.ne'
    rw [hn, List.take_succ_cons]
    exact (tagOf_eq_iff first _ _).1 htag
  · rintro ⟨op, rfl, hlen, htag, rfl⟩
    obtain ⟨n, hn⟩ := Nat.exists_eq_succ_of_ne_zero op.width_pos.ne'
    cases bytes with
    | nil => exact absurd hlen (Nat.not_le.2 op.width_pos)
    | cons first rest =>
      refine decode_of_tag ?_ hlen
      rw [hn, List.take_succ_cons] at htag
      exact (tagOf_eq_iff first _ _).2 htag

/-- Bytes that begin with the decoded instruction's own decode alike. -/
theorem decode_of_take_eq {bytes bytes' : List Byte} {i : Instr} {w : Nat} (h : decode bytes = .instr i w)
    (hlen : w ≤ bytes'.length) (htake : bytes'.take w = bytes.take w) : decode bytes' = .instr i w := by
  obtain ⟨op, hw, -, hop⟩ := decode_eq_instr_iff.1 h
  exact decode_eq_instr_iff.2 ⟨op, hw, hlen, by rwa [htake]⟩

/-- More bytes after a decodable instruction do not change its decoding. -/
theorem decode_append {bytes : List Byte} {i : Instr} {w : Nat} (h : decode bytes = .instr i w) (rest : List Byte) :
    decode (bytes ++ rest) = .instr i w := by
  obtain ⟨-, -, hlen, -⟩ := decode_eq_instr_iff.1 h
  exact decode_of_take_eq h (by rw [List.length_append]; omega) (List.take_append_of_le_length hlen)

/-- Settles O28: the instruction's own bytes begin both byte sequences. -/
theorem decodeReadsOnlyItsOwnBytes : Obligations.DecodeReadsOnlyItsOwnBytes := by
  intro bytes rest i w h
  obtain ⟨-, -, hlen, -⟩ := decode_eq_instr_iff.1 h
  exact decode_append (decode_of_take_eq h (by simp [hlen]) (by simp)) rest

/-! The instruction integer as tag, field B, field C and unused bits. -/

@[simp] theorem fieldB_instrOfFields (op : Op) (b c : Nat) : (instrOfFields op b c).fieldB = b % 2 ^ op.widthB := by
  cases op <;> rfl

@[simp] theorem fieldC_instrOfFields (op : Op) (b c : Nat) : (instrOfFields op b c).fieldC = c % 2 ^ op.widthC := by
  cases op <;> rfl

/-- The decoder's fields are already masked to their widths. -/
@[simp] theorem fieldB_instrOfInt (op : Op) (I : Nat) : (instrOfInt op I).fieldB = fieldB op I := by
  rw [instrOfInt, fieldB_instrOfFields, fieldB_eq, Nat.mod_mod]

@[simp] theorem fieldC_instrOfInt (op : Op) (I : Nat) : (instrOfInt op I).fieldC = fieldC op I := by
  rw [instrOfInt, fieldC_instrOfFields, fieldC_eq, Nat.mod_mod]

/-- The used bits of an instruction integer: the tag, field B above it, field C above both (R63). -/
theorem usedBits_eq (op : Op) (I : Nat) :
    I % 2 ^ (7 + op.widthB + op.widthC) = I % 2 ^ 7 + 2 ^ 7 * (fieldB op I + 2 ^ op.widthB * fieldC op I) := by
  rw [fieldB_eq, fieldC_eq, Nat.add_assoc, Nat.pow_add, Nat.mod_mul, Nat.pow_add 2 op.widthB, Nat.mod_mul, Nat.pow_add 2 7,
    Nat.div_div_eq_div_mul]

/-- The parts of the encoder's integer do not overlap, so the bitwise or of R87 is a sum. -/
theorem encodeInt_eq_add (i : Instr) :
    encodeInt i = i.op.tag.toNat + 2 ^ 7 * (i.fieldB + 2 ^ i.op.widthB * i.fieldC) := by
  have hA : i.op.tag.toNat < 2 ^ 7 := i.op.tag.isLt
  have hB : i.fieldB < 2 ^ i.op.widthB := (fields_fit i).1
  have hAB : i.op.tag.toNat + i.fieldB <<< 7 < 2 ^ (7 + i.op.widthB) := by
    rw [Nat.shiftLeft_eq, Nat.pow_add]
    nlinarith
  rw [encodeInt, Nat.or_comm i.op.tag.toNat, ← Nat.shiftLeft_add_eq_or_of_lt hA, Nat.add_comm (i.fieldB <<< 7), Nat.or_comm,
    ← Nat.shiftLeft_add_eq_or_of_lt hAB, Nat.shiftLeft_eq, Nat.shiftLeft_eq, Nat.pow_add]
  ring

/-- The encoder's integer holds the tag and the two fields it was made of (R63, R87). -/
theorem encodeInt_mod_tag (i : Instr) : encodeInt i % 2 ^ 7 = i.op.tag.toNat := by
  rw [encodeInt_eq_add, Nat.add_mul_mod_self_left, Nat.mod_eq_of_lt i.op.tag.isLt]

theorem encodeInt_div_tag (i : Instr) : encodeInt i / 2 ^ 7 = i.fieldB + 2 ^ i.op.widthB * i.fieldC := by
  rw [encodeInt_eq_add, Nat.add_mul_div_left _ _ (by decide), Nat.div_eq_of_lt i.op.tag.isLt, Nat.zero_add]

@[simp] theorem instrOfInt_encodeInt (i : Instr) : instrOfInt i.op (encodeInt i) = i := by
  obtain ⟨hB, hC⟩ := fields_fit i
  have hb : encodeInt i / 2 ^ 7 % 2 ^ i.op.widthB = i.fieldB := by
    rw [encodeInt_div_tag, Nat.add_mul_mod_self_left, Nat.mod_eq_of_lt hB]
  have hc : encodeInt i / 2 ^ (7 + i.op.widthB) % 2 ^ i.op.widthC = i.fieldC := by
    rw [Nat.pow_add, ← Nat.div_div_eq_div_mul, encodeInt_div_tag, Nat.add_mul_div_left _ _ (Nat.two_pow_pos _),
      Nat.div_eq_of_lt hB, Nat.zero_add, Nat.mod_eq_of_lt hC]
  rw [instrOfInt_eq_of_slices hb hc, instrOfFields_fields]

/-- Encoding what an integer with a legal tag decodes to keeps its used bits and clears the others (R69). -/
theorem encodeInt_instrOfInt {op : Op} {I : Nat} (htag : I % 2 ^ 7 = op.tag.toNat) :
    encodeInt (instrOfInt op I) = I % 2 ^ (7 + op.widthB + op.widthC) := by
  rw [encodeInt_eq_add, instrOfInt_op, fieldB_instrOfInt, fieldC_instrOfInt, usedBits_eq, htag]

/-- Integers with the same used bits hold the same tag. -/
theorem tag_congr_of_usedBits {op : Op} {I J : Nat}
    (h : I % 2 ^ (7 + op.widthB + op.widthC) = J % 2 ^ (7 + op.widthB + op.widthC)) : I % 2 ^ 7 = J % 2 ^ 7 :=
  Nat.ModEq.of_dvd (Nat.pow_dvd_pow 2 (by omega)) h

/-- Integers with the same used bits hold the same instruction (R69). -/
theorem instrOfInt_congr_of_usedBits {op : Op} {I J : Nat}
    (h : I % 2 ^ (7 + op.widthB + op.widthC) = J % 2 ^ (7 + op.widthB + op.widthC)) :
    instrOfInt op I = instrOfInt op J := by
  have hB : fieldB op I = fieldB op J := by
    rw [fieldB_eq, fieldB_eq, ← Nat.mod_mul_right_div_self, ← Nat.mod_mul_right_div_self, ← Nat.pow_add]
    exact congrArg (· / 2 ^ 7) (Nat.ModEq.of_dvd (Nat.pow_dvd_pow 2 (by omega)) h)
  have hC : fieldC op I = fieldC op J := by
    rw [fieldC_eq, fieldC_eq, ← Nat.mod_mul_right_div_self, ← Nat.mod_mul_right_div_self, ← Nat.pow_add, h]
  rw [instrOfInt, instrOfInt, hB, hC]

/-- `W` bytes whose integer holds a legal tag decode to the instruction of that integer, whatever follows them. -/
theorem decode_bytesLE_append {op : Op} {I : Nat} (htag : I % 2 ^ 7 = op.tag.toNat) (rest : List Byte) :
    decode (bytesLE op.width I ++ rest) = .instr (instrOfInt op I) op.width := by
  have hbits : I % 256 ^ op.width % 2 ^ (7 + op.widthB + op.widthC) = I % 2 ^ (7 + op.widthB + op.widthC) := by
    refine Nat.mod_mod_of_dvd I ?_
    rw [show (256 : Nat) = 2 ^ 8 by rfl, ← Nat.pow_mul]
    exact Nat.pow_dvd_pow 2 (by cases op <;> decide)
  have hint : instrInt ((bytesLE op.width I ++ rest).take op.width) = I % 256 ^ op.width := by
    rw [List.take_left' (bytesLE_length _ _), instrInt_bytesLE]
  refine decode_eq_instr_iff.2 ⟨op, rfl, by simp, ?_, ?_⟩
  · rw [hint, tag_congr_of_usedBits hbits, htag]
  · rw [hint, instrOfInt_congr_of_usedBits hbits]

/-- An encoded instruction decodes to itself, whatever follows it (R93). -/
theorem decode_encode_append (i : Instr) (rest : List Byte) : decode (encode i ++ rest) = .instr i i.width := by
  rw [encode, Instr.width, decode_bytesLE_append (encodeInt_mod_tag i), instrOfInt_encodeInt]

/-- Settles O25: the encoder's integer holds the instruction. -/
theorem decodeOfEncodeIsTheInstruction : Obligations.DecodeOfEncodeIsTheInstruction := fun i rest _ =>
  ⟨decode_encode_append i rest, encode_length i⟩

/-- Settles O26: the decoded bytes' integer holds the tag, so encoding keeps its used bits. -/
theorem encodeOfDecodeClearsUnusedBits : Obligations.EncodeOfDecodeClearsUnusedBits := by
  intro bytes i w h
  obtain ⟨op, rfl, hlen, htag, rfl⟩ := decode_eq_instr_iff.1 h
  refine ⟨by rw [Instr.width, instrOfInt_op], hlen, ?_⟩
  rw [encode, Instr.width, instrOfInt_op, encodeInt_instrOfInt htag]

/-- Settles O27: tag and fields lie in the used bits, and the encoder's integer has no others. -/
theorem unusedBitsAreIgnored : Obligations.UnusedBitsAreIgnored := by
  refine ⟨?decoder, ?encoder⟩
  case decoder =>
    intro op I J rest rest' htag hbits
    refine ⟨_, decode_bytesLE_append htag rest, ?_⟩
    rw [instrOfInt_congr_of_usedBits hbits]
    exact decode_bytesLE_append ((tag_congr_of_usedBits hbits).symm.trans htag) rest'
  case encoder =>
    intro i
    rw [instrInt_encode]
    exact encodeInt_lt i

/-- Settles O32: each word has a legal tag, and its format's slices are the operands written out. -/
theorem workedExamplesDecode : Obligations.WorkedExamplesDecode :=
  ⟨loadConstFormat 0x0A 0xE3 0x09 0x00 0x00 [] rfl, readMemFormat 0x36 0xA4 0x00 0x00 0x80 0x01 [] rfl,
    writeMemFormat 0xA7 0x14 [] rfl, loadConstFormat 0x8A 0x00 0x00 0x00 0x00 [] rfl,
    popcntFormat 0x12 0x15 0x00 0x00 0x00 0x00 [] rfl⟩

end Sys2Proof
end

section
/-! The four instructions' outcomes at a valid address (40_load_const.md, 41_memory_access.md, 42_popcnt.md), what they read
and write (10_state.md section 1), and the record of a bounds fault (60_exceptions.md, R143). -/

namespace Sys2Proof.Machine

/-- READ_MEM's outcome at a valid address (R110). -/
theorem exec_readMem_of_lt {addr : Word} (h : addr.toNat < 1024) (rd : RegIdx) (s : State) :
    exec (.readMem addr rd) s = .next ((s.writeReg rd (s.readCell addr.toNat)).retire 6) :=
  (exec_readMem addr rd s).trans (checkedAccess_of_lt h _ s _)

/-- WRITE_MEM's outcome at a valid address (R115). -/
theorem exec_writeMem_of_lt {raddr : RegIdx} {s : State} (h : (s.readReg raddr).toNat < 1024) (rs : RegIdx) :
    exec (.writeMem rs raddr) s = .next ((s.writeCell (s.readReg raddr).toNat (s.readReg rs)).retire 2) :=
  (exec_writeMem rs raddr s).trans (checkedAccess_of_lt h _ s _)

/-- POPCNT's outcome at a valid address (R131). -/
theorem exec_popcnt_of_lt {addr : Word} (h : addr.toNat < 1024) (rd : RegIdx) (s : State) :
    exec (.popcnt rd addr) s =
      .next (((s.writeCell addr.toNat (popcountWord (s.readCell addr.toNat))).writeReg rd
        (popcountWord (s.readCell addr.toNat))).retire 6) :=
  (exec_popcnt rd addr s).trans (checkedAccess_of_lt h _ s _)

/-- POPCNT's retirement, whether or not the cell is written (R30, R77; U2). -/
theorem retiresTo_popcnt (writesMem : Bool) (s : State) (a : Nat) (rd : RegIdx) (v : Word) :
    retiresTo s (((if writesMem then s.writeCell a v else s).writeReg rd v).retire 6) 6 := by
  cases writesMem <;> exact ⟨rfl, rfl, rfl, rfl, rfl, rfl⟩

/-- Settles O1: the register write retires. -/
theorem loadConstCompletes : Obligations.LoadConstCompletes := by
  intro rd imm24 s
  refine ⟨_, exec_loadConst rd imm24 s, ?_, fun r hr => ?_, fun _ => rfl, retiresTo_writeReg_retire s rd _ 5⟩
  · simp
  · rw [State.readReg_retire, State.readReg_writeReg_other s rd r _ hr]

/-- Settles O2: the register write of the cell's value retires. -/
theorem readMemCompletesInBounds : Obligations.ReadMemCompletesInBounds := by
  intro addr rd s h
  refine ⟨_, exec_readMem_of_lt h rd s, ?_, fun r hr => ?_, fun _ => rfl, retiresTo_writeReg_retire s rd _ 6⟩
  · simp
  · rw [State.readReg_retire, State.readReg_writeReg_other s rd r _ hr]

/-- Settles O3: the cell write retires, and a canonical memory reads back what was written. -/
theorem writeMemCompletesInBounds : Obligations.WriteMemCompletesInBounds := by
  intro rs raddr s hwf h
  refine ⟨_, exec_writeMem_of_lt h rs, ?_, fun a ha => ?_, fun _ => rfl, retiresTo_writeCell_retire s _ _ 2⟩
  · rw [State.readCell_retire, State.readCell_writeCell hwf, if_pos rfl]
  · rw [State.readCell_retire, State.readCell_writeCell hwf, if_neg ha]

/-- Settles O5: both values of the parameter check the address alike, and differ in the cell write alone. -/
theorem popcntParameterDecidesOnlyTheCell : Obligations.PopcntParameterDecidesOnlyTheCell := by
  intro writesMem rd addr s
  refine ⟨fun hwf h => ?valid, fun h => ?invalid⟩
  case valid =>
    refine ⟨_, checkedAccess_of_lt h _ s _, by simp, ?_, fun r hr => ?_, fun a ha => ?_, retiresTo_popcnt writesMem s _ rd _⟩
    · cases writesMem <;> simp [State.readCell_writeCell hwf]
    · rw [State.readReg_retire, State.readReg_writeReg_other _ rd r _ hr]
      cases writesMem <;> rfl
    · cases writesMem <;> simp [State.readCell_writeCell hwf, ha]
  case invalid => exact ⟨_, checkedAccess_of_ge h _ s _, takesFault_raiseFault s _ addr⟩

/-- Settles O4: POPCNT is the parameter's default, which writes the cell (D4). -/
theorem popcntCompletesInBounds : Obligations.PopcntCompletesInBounds := by
  intro rd addr s hwf h
  obtain ⟨t, ht, hreg, hcell, hregs, hcells, hretires⟩ := (popcntParameterDecidesOnlyTheCell true rd addr s).1 hwf h
  refine ⟨t, ht, hreg, ?_, hregs, hcells, hretires⟩
  rw [hcell, if_pos rfl, hreg]

/-- Settles O7: raising the fault writes the whole record and nothing else. -/
theorem boundsFaultRecordsKindPcAndAddress : Obligations.BoundsFaultRecordsKindPcAndAddress := by
  intro i s t a hexec ha
  cases i with
  | loadConst rd c =>
    obtain rfl := Host.Outcome.next.inj hexec
    rfl
  | readMem addr rd =>
    rintro rfl
    obtain rfl := Host.Outcome.next.inj ((exec_readMem_of_ge ha rd s).symm.trans hexec)
    exact takesFault_raiseFault s _ _
  | writeMem rs raddr =>
    rintro rfl
    obtain rfl := Host.Outcome.next.inj ((exec_writeMem_of_ge ha rs).symm.trans hexec)
    exact takesFault_raiseFault s _ _
  | popcnt rd addr =>
    rintro rfl
    obtain rfl := Host.Outcome.next.inj ((exec_popcnt_of_ge ha rd s).symm.trans hexec)
    exact takesFault_raiseFault s _ _

/-! What an instruction writes and reads (R23, R46). -/

/-- The register that differs after a register write is the one written. -/
theorem State.eq_of_readReg_writeReg_ne {s : State} {r q : RegIdx} {v : Word}
    (h : (s.writeReg r v).readReg q ≠ s.readReg q) : q = r :=
  not_not.1 fun hq => h (s.readReg_writeReg_other r q v hq)

/-- The cell that differs after a cell write is the one written. -/
theorem State.eq_of_readCell_writeCell_ne {s : State} (hwf : s.mem.wf = true) {a c : Nat} {v : Word}
    (h : (s.writeCell a v).readCell c ≠ s.readCell c) : c = a :=
  not_not.1 fun hc => h (by rw [State.readCell_writeCell hwf, if_neg hc])

/-- Settles O9: each outcome makes the instruction's own writes, or raises a fault, which makes none. -/
theorem execWritesOnlyItsTargets : Obligations.ExecWritesOnlyItsTargets := by
  intro i s t hwf hexec
  cases i with
  | loadConst rd c =>
    obtain rfl := Host.Outcome.next.inj hexec
    exact ⟨fun r hr => State.eq_of_readReg_writeReg_ne hr, fun a ha => ha rfl⟩
  | readMem addr rd =>
    rcases exec_readMem_cases addr rd s with ⟨_, e⟩ | ⟨_, e⟩ <;> obtain rfl := Host.Outcome.next.inj (e.symm.trans hexec)
    · exact ⟨fun r hr => State.eq_of_readReg_writeReg_ne hr, fun a ha => ha rfl⟩
    · exact ⟨fun r hr => absurd rfl hr, fun a ha => ha rfl⟩
  | writeMem rs raddr =>
    rcases exec_writeMem_cases rs raddr s with ⟨_, e⟩ | ⟨_, e⟩ <;> obtain rfl := Host.Outcome.next.inj (e.symm.trans hexec)
    · exact ⟨fun r hr => hr rfl, fun a ha => State.eq_of_readCell_writeCell_ne hwf ha⟩
    · exact ⟨fun r hr => hr rfl, fun a ha => absurd rfl ha⟩
  | popcnt rd addr =>
    rcases exec_popcnt_cases rd addr s with ⟨_, e⟩ | ⟨_, e⟩ <;> obtain rfl := Host.Outcome.next.inj (e.symm.trans hexec)
    · exact ⟨fun r hr => State.eq_of_readReg_writeReg_ne hr, fun a ha => State.eq_of_readCell_writeCell_ne hwf ha⟩
    · exact ⟨fun r hr => absurd rfl hr, fun a ha => absurd rfl ha⟩

/-- Settles O10: no register but WRITE_MEM's two enters an outcome; after an access that faults, no register is compared. -/
theorem execReadsOnlyItsSourceRegisters : Obligations.ExecReadsOnlyItsSourceRegisters := by
  intro i s x hsources
  cases i with
  | loadConst rd c => exact ⟨_, _, rfl, rfl, rfl, fun _ => by simp⟩
  | readMem addr rd =>
    rcases Nat.lt_or_ge addr.toNat 1024 with h | h
    · exact ⟨_, _, exec_readMem_of_lt h rd s, exec_readMem_of_lt h rd _, rfl, fun _ => by simp; rfl⟩
    · exact ⟨_, _, exec_readMem_of_ge h rd s, exec_readMem_of_ge h rd _, rfl, fun hne => absurd rfl hne⟩
  | writeMem rs raddr =>
    obtain ⟨hrs, hraddr⟩ := hsources
    have hdata : ({ s with x := x } : State).readReg rs = s.readReg rs := hrs.symm
    have haddr : ({ s with x := x } : State).readReg raddr = s.readReg raddr := hraddr.symm
    simp only [exec_writeMem, hdata, haddr]
    rcases Nat.lt_or_ge (s.readReg raddr).toNat 1024 with h | h
    · exact ⟨_, _, checkedAccess_of_lt h _ s _, checkedAccess_of_lt h _ _ _, rfl, fun _ => trivial⟩
    · exact ⟨_, _, checkedAccess_of_ge h _ s _, checkedAccess_of_ge h _ _ _, rfl, fun _ => trivial⟩
  | popcnt rd addr =>
    rcases Nat.lt_or_ge addr.toNat 1024 with h | h
    · exact ⟨_, _, exec_popcnt_of_lt h rd s, exec_popcnt_of_lt h rd _, rfl, fun _ => by simp; rfl⟩
    · exact ⟨_, _, exec_popcnt_of_ge h rd s, exec_popcnt_of_ge h rd _, rfl, fun hne => absurd rfl hne⟩

/-- Settles O11: WRITE_MEM leaves its value in the cell, from which both accesses read. -/
theorem storeIsSeenByTheNextAccess : Obligations.StoreIsSeenByTheNextAccess := by
  intro rs raddr rd s hwf h
  obtain ⟨t, ht, hcell, -⟩ := writeMemCompletesInBounds rs raddr s hwf h
  refine ⟨t, ht, ⟨_, exec_readMem_of_lt h rd t, ?_⟩, ⟨_, exec_popcnt_of_lt h rd t, ?_⟩⟩
  · rw [State.readReg_retire, State.readReg_writeReg_same, hcell]
  · rw [State.readReg_retire, State.readReg_writeReg_same, popcountWord_toNat, hcell]

/-! The population counter on a value below 2^24, and the address translator in hardware form (R50, R132). -/

/-- Settles O13: the one bits of a value below 2^24 are among its low 24 positions. -/
theorem popcountOfReachableValueIsAtMost24 : Obligations.PopcountOfReachableValueIsAtMost24 := by
  intro v hv
  have hlow : ∀ i : Fin 32, v.getLsbD i.val = true → i.val < 24 := fun i hi =>
    not_le.1 fun hge =>
      absurd hi (by simp [BitVec.getLsbD, Nat.testBit_lt_two_pow (hv.trans_le (Nat.pow_le_pow_right (by decide) hge))])
  calc popcount v = (Finset.univ.filter fun i : Fin 32 => v.getLsbD i.val = true).card := popcount_eq_card v
    _ ≤ (Finset.univ.filter fun i : Fin 32 => i.val < 24).card :=
        Finset.card_le_card (Finset.monotone_filter_right _ fun i _ => hlow i)
    _ = 24 := rfl

/-- Settles O14: the hardware's check and cell index agree with the number. -/
theorem addressTranslationIsTheLowTenBits : Obligations.AddressTranslationIsTheLowTenBits := by
  intro a
  have hcheck : a.extractLsb' 10 22 = 0#22 ↔ a.toNat < 1024 := decide_eq_true_iff.symm.trans (addressInBounds_iff a)
  exact ⟨(validAddr_iff a).trans hcheck.symm, fun h => ⟨(cellIndex_of_lt ((validAddr_iff a).1 h)).symm, rfl⟩⟩

/-! POPCNT from the bytes at `pc` (R67, R131). -/

/-- The step at six bytes with tag 18: a POPCNT of the cell `I[41:10]` into the register `I[9:7]`. -/
theorem step_popcnt_bytes {s : State} {b0 b1 b2 b3 b4 b5 : Byte} {rest : List Byte} (hrun : s.runState = .running)
    (hbytes : s.program.drop s.pc.toNat = b0 :: b1 :: b2 :: b3 :: b4 :: b5 :: rest) (htag : b0.extractLsb' 0 7 = 18#7) :
    step s = exec (.popcnt (b1.extractLsb' 0 2 ++ b0.extractLsb' 7 1).toFin
      (b5.extractLsb' 0 2 ++ b4 ++ b3 ++ b2 ++ b1.extractLsb' 2 6)) s := by
  have hfetch := popcntFormat b0 b1 b2 b3 b4 b5 rest htag
  rw [← hbytes] at hfetch
  exact step_of_fetch_instr hrun hfetch

/-- Settles O18: with six bytes there POPCNT is executed, and the address decides between the two writes and the fault; with
fewer the decoder stops the step. -/
theorem popcntFromBytes : Obligations.PopcntFromBytes := by
  intro s b0 tail hrun hwf hbytes htag
  refine ⟨?full, ?truncated⟩
  case full =>
    rintro b1 b2 b3 b4 b5 rest a rfl ha
    have hstep := step_popcnt_bytes hrun hbytes htag
    rw [← ha] at hstep
    rcases exec_popcnt_cases (b1.extractLsb' 0 2 ++ b0.extractLsb' 7 1).toFin a s with ⟨hlt, hexec⟩ | ⟨hge, hexec⟩
    · refine ⟨_, hstep.trans hexec, ?_⟩
      rw [if_pos hlt]
      refine ⟨fun r => ?_, fun c => ?_, retiresTo_popcnt true s _ _ _⟩
      · rw [State.readReg_retire, State.readReg_writeReg, apply_ite BitVec.toNat, popcountWord_toNat,
          State.readReg_writeCell]
        simp only [Fin.ext_iff, BitVec.val_toFin]
      · rw [State.readCell_retire, State.readCell_writeReg, State.readCell_writeCell hwf, apply_ite BitVec.toNat,
          popcountWord_toNat]
    · refine ⟨_, hstep.trans hexec, ?_⟩
      rw [if_neg (Nat.not_lt.2 hge)]
      exact ⟨raisesFault_raiseFault s _ a, s.raiseFault_faultInfo _ a⟩
  case truncated =>
    intro hlen
    exact step_truncated_of_tag (op := .popcnt) hrun hbytes htag (Nat.succ_lt_succ hlen)

end Sys2Proof.Machine
end

section
/-! The invariants of a run (10_state.md sections 2, 4, 5 and 7; 30_encoding.md sections 4 and 5): what a step does to the control
state, to the registers and to the memory, said once each, and the invariants that follow. -/

namespace Sys2Proof.Machine

/-! What a step does to the control state. -/

/-- The same stream, `pc`, run state and fault record. -/
structure SameControl (s u : State) : Prop where
  program : u.program = s.program
  pc : u.pc = s.pc
  runState : u.runState = s.runState
  record : sameRecord s u

/-- An executed instruction retires with the control state it started from, or raises a fault that is no decode fault. -/
theorem exec_control {i : Instr} {s t : State} (h : exec i s = .next t) :
    (∃ u, SameControl s u ∧ t = u.retire i.width) ∨
      ∃ kind info, kind ≠ FaultKind.none ∧ kind ≠ .unknownOpcode ∧ kind ≠ .truncatedInstruction ∧
        t = s.raiseFault kind info := by
  rcases exec_next_cases h with ⟨u, ht, hprogram, hpc, hrun, hrecord⟩ | hfault
  · exact .inl ⟨u, ⟨hprogram, hpc, hrun, hrecord⟩, ht⟩
  · exact .inr hfault

/-- A step leaves `Running` by retiring the fetched instruction or by raising a fault. -/
theorem step_control {s t : State} (h : step s = .next t) :
    s.runState = .running ∧
      ((∃ i u, s.fetch = .instr i i.width ∧ s.pc.toNat + i.width ≤ s.program.length ∧ SameControl s u ∧
          t = u.retire i.width) ∨
        ∃ kind info, kind ≠ FaultKind.none ∧ t = s.raiseFault kind info) := by
  obtain ⟨hrun, ⟨i, w, hfetch, hexec⟩ | ⟨tag, -, rfl⟩ | ⟨tag, n, -, rfl⟩⟩ := step_cases h
  · obtain ⟨rfl, hlen⟩ := fetch_instr_width hfetch
    rcases exec_control hexec with ⟨u, hu, rfl⟩ | ⟨kind, info, hkind, -, -, rfl⟩
    · exact ⟨hrun, .inl ⟨i, u, hfetch, hlen, hu, rfl⟩⟩
    · exact ⟨hrun, .inr ⟨kind, info, hkind, rfl⟩⟩
  · exact ⟨hrun, .inr ⟨_, _, by decide, rfl⟩⟩
  · exact ⟨hrun, .inr ⟨_, _, by decide, rfl⟩⟩

/-- Retiring keeps the fault record of the state it started from. -/
theorem SameControl.retire_record {s u : State} (h : SameControl s u) (w : Nat) : sameRecord s (u.retire w) := h.record

/-- Where `pc` is after retiring, when the instruction's bytes were there: past them, with no wrap (R29, R30). -/
theorem SameControl.retire_pc_toNat {s u : State} (h : SameControl s u) (hL : s.program.length ≤ Config.maxProgramLength)
    {w : Nat} (hw : s.pc.toNat + w ≤ s.program.length) : (u.retire w).pc.toNat = s.pc.toNat + w := by
  rw [State.retire_pc, h.pc, pc_add_width_toNat hL hw]

/-- What retiring decides of the run state: `Halted` at the end of the stream, `Running` before it (R78). -/
theorem SameControl.retire_runState_eq {s u : State} (h : SameControl s u) (hrun : s.runState = .running)
    (hL : s.program.length ≤ Config.maxProgramLength) {w : Nat} (hw : s.pc.toNat + w ≤ s.program.length) :
    (u.retire w).runState = if s.pc.toNat + w = s.program.length then .halted else .running := by
  rw [State.retire_runState, h.pc, h.program, h.runState, hrun, pc_add_width_toNat hL hw]

/-- Settles O44: neither retiring nor a fault touches the stream. -/
theorem stepNeverWritesTheProgram : Obligations.StepNeverWritesTheProgram := by
  intro s t h
  obtain ⟨-, ⟨i, u, -, -, hu, rfl⟩ | ⟨kind, info, -, rfl⟩⟩ := step_control h
  · exact hu.program
  · rfl

/-- Settles O38: retiring ends at `pc = L` in `Halted` or at `pc < L` in `Running`, the record still clear; a fault is recorded
at the `pc < L` of the instruction. -/
theorem stepKeepsStatusConsistent : Obligations.StepKeepsStatusConsistent := by
  rintro s t ⟨hL, hrunning, -, -⟩ h
  obtain ⟨hrun, ⟨i, u, -, hw, hu, rfl⟩ | ⟨kind, info, hkind, rfl⟩⟩ := step_control h
  · obtain ⟨-, hnone, hpc0, hinfo0⟩ := hrunning hrun
    obtain ⟨hk, hp, hi⟩ := hu.retire_record i.width
    have hclear : (u.retire i.width).recordClear := ⟨hk.trans hnone, hp.trans hpc0, hi.trans hinfo0⟩
    rw [State.statusOk, hu.retire_pc_toNat hL hw, hu.retire_runState_eq hrun hL hw, State.retire_program, hu.program]
    by_cases hend : s.pc.toNat + i.width = s.program.length
    · simpa [hend, hL] using hclear
    · simpa [hend, hL, Nat.lt_of_le_of_ne hw hend] using hclear
  · obtain ⟨hpc, -⟩ := hrunning hrun
    exact ⟨hL, nofun, nofun, fun _ => ⟨hpc, hkind, rfl⟩⟩

theorem op_width_cases (op : Op) : op.width = 2 ∨ op.width = 5 ∨ op.width = 6 := by
  cases op <;> decide

/-- Settles O45: retiring advances `pc` by the fetched width; a fault keeps it. -/
theorem pcAdvancesByTheInstructionWidth : Obligations.PcAdvancesByTheInstructionWidth := by
  rintro s t ⟨hL, -⟩ h
  obtain ⟨hrun, ⟨i, u, hfetch, hw, hu, rfl⟩ | ⟨kind, info, -, rfl⟩⟩ := step_control h
  · have hpc := hu.retire_pc_toNat hL hw
    have hne : u.runState ≠ .faulted := by simp [hu.runState, hrun]
    exact .inr ⟨State.retire_not_faulted hne _, i, i.width, hfetch, hpc, hpc.trans_le hw, op_width_cases i.op⟩
  · exact .inl ⟨rfl, rfl⟩

/-! What a step does to the memory and to the registers. -/

/-- A step writes at most one cell, at a valid address, and only a register's value or a count (R46). -/
theorem step_mem {s t : State} (h : step s = .next t) :
    t.mem = s.mem ∨ ∃ a v, a < 1024 ∧ t.mem = (s.writeCell a v).mem ∧
      ((∃ r, v = s.readReg r) ∨ ∃ w, v = popcountWord w) := by
  obtain ⟨-, ⟨i, w, -, hexec⟩ | ⟨tag, -, rfl⟩ | ⟨tag, n, -, rfl⟩⟩ := step_cases h
  · cases i with
    | loadConst rd c =>
      obtain rfl := Host.Outcome.next.inj hexec
      exact .inl rfl
    | readMem a rd =>
      rcases exec_readMem_cases a rd s with ⟨_, e⟩ | ⟨_, e⟩ <;>
        obtain rfl := Host.Outcome.next.inj (e.symm.trans hexec)
      · exact .inl rfl
      · exact .inl rfl
    | writeMem rs raddr =>
      rcases exec_writeMem_cases rs raddr s with ⟨hlt, e⟩ | ⟨_, e⟩ <;>
        obtain rfl := Host.Outcome.next.inj (e.symm.trans hexec)
      · exact .inr ⟨_, _, hlt, rfl, .inl ⟨rs, rfl⟩⟩
      · exact .inl rfl
    | popcnt rd a =>
      rcases exec_popcnt_cases rd a s with ⟨hlt, e⟩ | ⟨_, e⟩ <;>
        obtain rfl := Host.Outcome.next.inj (e.symm.trans hexec)
      · exact .inr ⟨_, _, hlt, rfl, .inr ⟨_, rfl⟩⟩
      · exact .inl rfl
  · exact .inl rfl
  · exact .inl rfl

/-- A step writes at most one register, and only a constant, a cell's value or a count (R23). -/
theorem step_regs {s t : State} (h : step s = .next t) :
    t.x = s.x ∨ ∃ rd v, t.x = (s.writeReg rd v).x ∧
      ((∃ c, v = zext32 c) ∨ (∃ a, v = s.readCell a) ∨ ∃ w, v = popcountWord w) := by
  obtain ⟨-, ⟨i, w, -, hexec⟩ | ⟨tag, -, rfl⟩ | ⟨tag, n, -, rfl⟩⟩ := step_cases h
  · cases i with
    | loadConst rd c =>
      obtain rfl := Host.Outcome.next.inj hexec
      exact .inr ⟨rd, _, rfl, .inl ⟨c, rfl⟩⟩
    | readMem a rd =>
      rcases exec_readMem_cases a rd s with ⟨_, e⟩ | ⟨_, e⟩ <;>
        obtain rfl := Host.Outcome.next.inj (e.symm.trans hexec)
      · exact .inr ⟨rd, _, rfl, .inr (.inl ⟨_, rfl⟩)⟩
      · exact .inl rfl
    | writeMem rs raddr =>
      rcases exec_writeMem_cases rs raddr s with ⟨_, e⟩ | ⟨_, e⟩ <;>
        obtain rfl := Host.Outcome.next.inj (e.symm.trans hexec)
      · exact .inl rfl
      · exact .inl rfl
    | popcnt rd a =>
      rcases exec_popcnt_cases rd a s with ⟨_, e⟩ | ⟨_, e⟩ <;>
        obtain rfl := Host.Outcome.next.inj (e.symm.trans hexec)
      · exact .inr ⟨rd, _, rfl, .inr (.inr ⟨_, rfl⟩)⟩
      · exact .inl rfl
  · exact .inl rfl
  · exact .inl rfl

/-- Settles O39: the one cell a step may write is at a valid address, and a write keeps the canonical form. -/
theorem stepKeepsMemoryCanonical : Obligations.StepKeepsMemoryCanonical := by
  intro s t hwf h
  rcases step_mem h with hmem | ⟨a, v, ha, hmem, -⟩
  · rwa [hmem]
  · rw [hmem]
    exact State.writeCell_wf hwf ha v

theorem zext32_lt (c : Imm24) : (zext32 c).toNat < 2 ^ 24 := by
  rw [zext32_toNat]
  exact c.isLt

theorem popcountWord_lt (v : Word) : (popcountWord v).toNat < 2 ^ 24 := by
  rw [popcountWord_toNat]
  exact (popcount_le v).trans_lt (by decide)

/-- Settles O40: every value a step writes is a 24-bit constant, a count, or the value of a register or cell before it. -/
theorem stepKeepsValuesBelow24Bits : Obligations.StepKeepsValuesBelow24Bits := by
  rintro s t hwf ⟨hregs, hcells⟩ h
  refine ⟨fun r => ?register, fun c => ?cell⟩
  case register =>
    rcases step_regs h with hx | ⟨rd, v, hx, hv⟩
    · have hread : t.readReg r = s.readReg r := by simp only [State.readReg, hx]
      exact hread ▸ hregs r
    · have hread : t.readReg r = (s.writeReg rd v).readReg r := by simp only [State.readReg, hx]
      rw [hread, State.readReg_writeReg]
      split
      · obtain ⟨c, rfl⟩ | ⟨a, rfl⟩ | ⟨w, rfl⟩ := hv
        · exact zext32_lt c
        · exact hcells a
        · exact popcountWord_lt w
      · exact hregs r
  case cell =>
    rcases step_mem h with hmem | ⟨a, v, -, hmem, hv⟩
    · have hread : t.readCell c = s.readCell c := by simp only [State.readCell, hmem]
      exact hread ▸ hcells c
    · have hread : t.readCell c = (s.writeCell a v).readCell c := by simp only [State.readCell, hmem]
      rw [hread, State.readCell_writeCell hwf]
      split
      · obtain ⟨r, rfl⟩ | ⟨w, rfl⟩ := hv
        · exact hregs r
        · exact popcountWord_lt w
      · exact hcells c

/-! Which steps there are, and how a run ends (R75, R77, R79). -/

/-- Settles O33: the step is the execution of what was fetched, whose width is its opcode's. -/
theorem stepRunsTheDecodedInstruction : Obligations.StepRunsTheDecodedInstruction := fun _ _ _ hrun hfetch _ =>
  ⟨step_of_fetch_instr hrun hfetch, (fetch_instr_width hfetch).1⟩

/-- The fetch at the first byte of an encoded instruction, whatever surrounds it (R45, R93). -/
theorem fetch_encode {s : State} {before after : List Byte} {i : Instr} (hprogram : s.program = before ++ (encode i ++ after))
    (hpc : s.pc.toNat = before.length) : s.fetch = .instr i i.width := by
  rw [State.fetch, hprogram, hpc, List.drop_left, decode_encode_append]

/-- Settles O34: the fetch is the encoded instruction. -/
theorem stepRunsAnEncodedInstruction : Obligations.StepRunsAnEncodedInstruction := by
  intro s before after i hrun hprogram hpc
  rw [List.append_assoc] at hprogram
  exact step_of_fetch_instr hrun (fetch_encode hprogram hpc)

/-- What is read back from `offset` on: the bytes placed there, then what the stream held after them. -/
theorem drop_placeBytes (program : List Byte) (offset : Nat) (bytes : List Byte) :
    (placeBytes program offset bytes).drop offset = bytes ++ program.drop (offset + bytes.length) := by
  have hlen : (program.take offset ++ List.replicate (offset - program.length) 0#8).length = offset := by
    rw [List.length_append, List.length_take, List.length_replicate]
    omega
  rw [placeBytes, List.append_assoc, List.drop_left' hlen]

/-- The table-word decoder answers what the decoder reads from the row's bytes. -/
theorem decodeTableWord_eq_some {nbits w : Nat} {i : Instr} (h : decodeTableWord nbits w = some i) :
    ∃ width, decode (tableWordBytes nbits w) = .instr i width := by
  unfold decodeTableWord at h
  split at h
  case h_1 hdecode =>
    obtain rfl := Option.some.inj h
    exact ⟨_, hdecode⟩
  all_goals cases h

/-- Settles O35: the row's bytes stand at `pc`, and what follows them does not change their decoding. -/
theorem fetchWordIsRunNext : Obligations.FetchWordIsRunNext := by
  intro s nbits w i h
  obtain ⟨width, hdecode⟩ := decodeTableWord_eq_some h
  have hfetch : (s.withFetchWord nbits w).fetch = .instr i width := by
    rw [State.fetch, State.withFetchWord_program, State.withFetchWord_pc, drop_placeBytes]
    exact decode_append hdecode _
  exact step_of_fetch_instr rfl hfetch

/-- Settles O36: the cycle looks at the run state first. -/
theorem finalStatesDoNotStep : Obligations.FinalStatesDoNotStep := by
  intro s
  refine ⟨fun h => ?_, fun h => ?_⟩
  · simp only [step, instructionCycle, h]
  · simp only [step, instructionCycle, h]

/-- Settles O37: there is a byte at `pc`, so the decoder answers an instruction or a fault, and each leads to a next state. -/
theorem runningStateAlwaysSteps : Obligations.RunningStateAlwaysSteps := by
  rintro s ⟨-, hrunning, -⟩ hrun
  have hbytes := List.drop_eq_getElem_cons (hrunning hrun).1
  rcases decode_cons (s.program[s.pc.toNat]'(hrunning hrun).1) (s.program.drop (s.pc.toNat + 1)) with
    ⟨-, hd⟩ | ⟨op, -, -, hd⟩ | ⟨op, -, -, hd⟩ <;> rw [← hbytes] at hd
  · exact ⟨_, step_of_fetch_unknown hrun hd⟩
  · exact ⟨_, step_of_fetch_truncated hrun hd⟩
  · obtain ⟨t, ht⟩ := exec_total _ s
    exact ⟨t, (step_of_fetch_instr hrun hd).trans ht⟩

/-- A truncated instruction's info as a sum: the byte count stands above the tag (R76). -/
theorem truncatedInfo_toNat (tag : Tag) {n : Nat} (hn : n < 2 ^ 24) : (truncatedInfo tag n).toNat = tag.toNat + 256 * n := by
  have htag : tag.toNat < 2 ^ 7 := tag.isLt
  rw [truncatedInfo, BitVec.toNat_ofNat, Nat.or_comm, ← Nat.shiftLeft_add_eq_or_of_lt (by omega), Nat.shiftLeft_eq]
  omega

/-- Settles O31: the decoder reports tag and count, which the info keeps apart. -/
theorem truncatedInstructionIsTaken : Obligations.TruncatedInstructionIsTaken := by
  intro s op first rest hrun hbytes htag hlen
  have hfetch : s.fetch = .truncated op.tag (first :: rest).length := by
    rw [State.fetch, hbytes, decode_truncated_of_tag htag hlen, ← htag]
    rfl
  have hn : (first :: rest).length < 6 := hlen.trans_le (by cases op <;> decide)
  have hinfo := truncatedInfo_toNat op.tag (n := (first :: rest).length) (by omega)
  have ht : op.tag.toNat < 2 ^ 7 := op.tag.isLt
  refine ⟨_, _, step_of_fetch_truncated hrun hfetch, takesFault_raiseFault s _ _, hinfo, ?_, ?_⟩
  · rw [← BitVec.toNat_inj, toNat_extractLsb'_eq, hinfo]
    omega
  · rw [toNat_extractLsb'_eq, hinfo]
    omega

/-- Settles O43: each step that retires leaves at least two bytes fewer before the end of the stream. -/
theorem everyRunEnds : Obligations.EveryRunEnds := by
  intro s hs
  induction hleft : s.program.length - s.pc.toNat using Nat.strong_induction_on generalizing s with
  | _ left ih =>
    cases hrun : s.runState with
    | halted => exact ⟨0, s, run_zero s, .inl ⟨hrun, Nat.zero_le _⟩⟩
    | faulted => exact ⟨0, s, run_zero s, .inr ⟨hrun, Nat.zero_le _⟩⟩
    | running =>
      obtain ⟨t, ht⟩ := runningStateAlwaysSteps s hs hrun
      rcases pcAdvancesByTheInstructionWidth s t hs ht with ⟨hfaulted, -⟩ | ⟨-, i, w, -, hpc, hle, hw⟩
      · exact ⟨1, t, run_succ_of_next ht 0, .inr ⟨hfaulted, Nat.le_add_left 1 _⟩⟩
      · have hprogram := stepNeverWritesTheProgram s t ht
        have hshrinks : t.program.length - t.pc.toNat + 2 ≤ left := by rw [hprogram]; omega
        obtain ⟨n, u, hu, hend⟩ := ih _ (by omega) t (stepKeepsStatusConsistent s t hs ht) rfl
        refine ⟨n + 1, u, (run_succ_of_next ht n).trans hu, hend.imp ?_ ?_⟩
        · rintro ⟨hhalted, hn⟩
          exact ⟨hhalted, by omega⟩
        · rintro ⟨hfaulted, hn⟩
          exact ⟨hfaulted, by omega⟩

/-! Reset (R170, R172). -/

/-- Reset with a stream the host may supply establishes the invariant. -/
theorem resetWith_inv {program : List Byte} (hL : program.length ≤ Config.maxProgramLength) :
    (State.resetWith program).inv := by
  have hclear : (State.resetWith program).recordClear := ⟨rfl, rfl, rfl⟩
  refine ⟨?status, rfl, fun r => by simp, fun a => by simp⟩
  by_cases hempty : program.length = 0
  · have hhalted : (State.resetWith program).runState = .halted := if_pos hempty
    refine ⟨hL, fun h => ?_, fun _ => ⟨hempty.symm, hclear⟩, fun h => ?_⟩ <;> cases hhalted.symm.trans h
  · have hrunning : (State.resetWith program).runState = .running := if_neg hempty
    refine ⟨hL, fun _ => ⟨Nat.pos_of_ne_zero hempty, hclear⟩, fun h => ?_, fun h => ?_⟩ <;> cases hrunning.symm.trans h

/-- Settles O41: the launch checks the length, and reset sets every field. -/
theorem launchResetsAndEstablishesInvariant : Obligations.LaunchResetsAndEstablishesInvariant := by
  refine ⟨fun program hL => ?_, fun program hL => if_neg (Nat.not_le.2 hL), resetWith_inv (Nat.zero_le _)⟩
  exact ⟨_, if_pos hL, resetWith_inv hL, rfl, rfl, ⟨rfl, rfl, rfl⟩, State.readReg_resetWith program,
    State.readCell_resetWith program, rfl⟩

/-! Instruction boundaries: runs of encoded instructions (R76, R88, R93). -/

/-- What a run keeps: a property that every step keeps. -/
theorem run_keeps {P : State → Prop} (hstep : ∀ s t, P s → step s = .next t → P t) {n : Nat} {s t : State} (hs : P s)
    (h : run n s = .next t) : P t := by
  induction n generalizing s with
  | zero => exact Host.Outcome.next.inj h ▸ hs
  | succ n ih =>
    obtain ⟨u, hu, hrun⟩ := run_succ_eq_next h
    exact ih (hstep s u hs hu) hrun

/-- At the boundary before an instruction of the program, that instruction is fetched. -/
theorem fetch_at_boundary {s : State} {done left : List Instr} {i : Instr}
    (hprogram : s.program = (done ++ i :: left).flatMap encode) (hpc : s.pc.toNat = (done.flatMap encode).length) :
    s.fetch = .instr i i.width :=
  fetch_encode (hprogram.trans (by rw [List.flatMap_append, List.flatMap_cons])) hpc

/-- At the boundary after the last instruction there is nothing to fetch. -/
theorem fetch_at_end {s : State} (hpc : s.pc.toNat = s.program.length) : s.fetch = .noByte := by
  rw [State.fetch, hpc, List.drop_length]
  rfl

/-- A step of a run of encoded instructions executes the instruction at the boundary where `pc` is. -/
theorem step_at_boundary {s t : State} {done left : List Instr} (hprogram : s.program = (done ++ left).flatMap encode)
    (hpc : s.pc.toNat = (done.flatMap encode).length) (h : step s = .next t) :
    ∃ i rest, left = i :: rest ∧ exec i s = .next t := by
  have hrun := (step_cases h).1
  cases left with
  | nil =>
    have hfetch := fetch_at_end (hpc.trans (by rw [hprogram, List.append_nil]))
    simp [step, instructionCycle, hrun, hfetch] at h
  | cons i rest => exact ⟨i, rest, rfl, (step_of_fetch_instr hrun (fetch_at_boundary hprogram hpc)).symm.trans h⟩

/-- The invariant of O59 and O58: a retired instruction is one more encoding that `pc` is past; a bounds fault leaves `pc`. -/
theorem step_keeps_runsProgram (is : List Instr) (s t : State) (hs : s.runsProgram is) (h : step s = .next t) :
    t.runsProgram is := by
  obtain ⟨hprogram, hL, ⟨done, left, rfl, hpc⟩, hunknown, htruncated⟩ := hs
  obtain ⟨i, rest, rfl, hexec⟩ := step_at_boundary hprogram hpc h
  rcases exec_control hexec with ⟨u, hu, rfl⟩ | ⟨kind, info, -, hku, hkt, rfl⟩
  · obtain ⟨-, hw⟩ := fetch_instr_width (fetch_at_boundary hprogram hpc)
    obtain ⟨hkind, -⟩ := hu.retire_record i.width
    refine ⟨hu.program.trans hprogram, (congrArg List.length hu.program).trans_le hL, ⟨done ++ [i], rest, by simp, ?_⟩,
      hkind ▸ hunknown, hkind ▸ htruncated⟩
    rw [hu.retire_pc_toNat hL hw, hpc, List.flatMap_append, List.length_append, List.flatMap_singleton, encode_length]
  · exact ⟨hprogram, hL, ⟨done, _, rfl, hpc⟩, hku, hkt⟩

/-- Reset is at the boundary before the first instruction. -/
theorem resetWith_runsProgram {is : List Instr} (hL : (is.flatMap encode).length ≤ Config.maxProgramLength) :
    (State.resetWith (is.flatMap encode)).runsProgram is :=
  ⟨rfl, hL, ⟨[], is, rfl, rfl⟩, nofun, nofun⟩

/-- Settles O59: the invariant's step, and reset. -/
theorem stepStaysOnInstructionBoundaries : Obligations.StepStaysOnInstructionBoundaries :=
  ⟨step_keeps_runsProgram, fun _ => resetWith_runsProgram⟩

/-- Settles O58: a translated program is the encodings of its instructions, so its run keeps the invariant. -/
theorem translatedProgramsNeverFaultInDecode : Obligations.TranslatedProgramsNeverFaultInDecode := by
  intro lines bytes log n t hassemble hL hrun
  obtain ⟨instrs, -, rfl, -⟩ := assemble_eq_ok_iff.1 hassemble
  obtain ⟨-, -, -, hunknown, htruncated⟩ :=
    run_keeps (step_keeps_runsProgram instrs) (resetWith_runsProgram hL) hrun
  exact ⟨hunknown, htruncated⟩

end Sys2Proof.Machine
end

section
/-! The datapath and its ports (30_encoding.md section 4, 40_load_const.md, 41_memory_access.md, 70_reset_and_hazards.md section 3;
D14, log 15): the decoder's slices are the decoded operands, and the ports they drive do what `exec` does. -/

namespace Sys2Proof.Machine

/-- The decoder outputs of an instruction, its operands written where the slices put them (R74);
`decoderOutputs_eq_signalsOf` ties it to the slices. -/
def signalsOf : Instr → Signals
  | .loadConst rd imm24 => ⟨.loadConst, 5, some rd, none, none, some imm24, none⟩
  | .readMem addr rd => ⟨.readMem, 6, some rd, none, none, none, some addr⟩
  | .writeMem rs raddr => ⟨.writeMem, 2, none, some rs, some raddr, none, none⟩
  | .popcnt rd addr => ⟨.popcnt, 6, some rd, none, none, none, some addr⟩

/-! The slices of the instruction integer (R74). -/

theorem regSlice_eq (I : BitVec 48) (lo : Nat) : regSlice I lo = Fin.ofNat 8 (I.toNat / 2 ^ lo % 2 ^ 3) := by
  rw [regSlice, ← regIdx_ofNat_toNat, toNat_extractLsb'_eq]

theorem extractLsb'_eq_ofNat (I : BitVec 48) (lo len : Nat) :
    I.extractLsb' lo len = BitVec.ofNat len (I.toNat / 2 ^ lo % 2 ^ len) := by
  rw [← toNat_extractLsb'_eq, BitVec.ofNat_toNat, BitVec.setWidth_eq]

/-- The slices are the operands the decoder takes out of the same integer, for every integer. -/
theorem decoderOutputs_eq_signalsOf (op : Op) (I : BitVec 48) :
    decoderOutputs op I = signalsOf (instrOfInt op I.toNat) := by
  cases op <;>
    simp only [decoderOutputs, regSlice_eq, extractLsb'_eq_ofNat, instrOfInt, fieldB_eq, fieldC_eq, instrOfFields, signalsOf,
      Op.widthB, Op.widthC, Nat.reduceAdd]

/-- From the bytes of a decoded instruction: they fit the 48-bit integer. -/
theorem decoderOutputs_of_decode {bytes : List Byte} {i : Instr} {w : Nat} (h : decode bytes = .instr i w) :
    decoderOutputs i.op (BitVec.ofNat 48 (instrInt (bytes.take w))) = signalsOf i := by
  obtain ⟨op, rfl, hlen, -, rfl⟩ := decode_eq_instr_iff.1 h
  have hfits : instrInt (bytes.take op.width) < 2 ^ 48 :=
    calc instrInt (bytes.take op.width) < 256 ^ (bytes.take op.width).length := instrInt_lt _
      _ ≤ 256 ^ 6 := Nat.pow_le_pow_right (by decide) ((List.length_take_le _ _).trans (by cases op <;> decide))
      _ = 2 ^ 48 := by decide
  rw [decoderOutputs_eq_signalsOf, instrOfInt_op, BitVec.toNat_ofNat, Nat.mod_eq_of_lt hfits]

/-! What the ports do (R101, R111, R116, R132, R175). -/

/-- At a valid data address both write ports are driven. -/
theorem datapathExecute_of_lt {g : Signals} {s : State} {a : Word} (h : dataAddress g s = some a) (ha : a.toNat < 1024) :
    datapathExecute g s = .next (((s.drive (memWritePort g s)).writeBackTo (writeBack g s)).retire g.width) := by
  simp only [datapathExecute, h, (addressInBounds_iff a).2 ha, if_true]

/-- At an invalid data address the opcode's bounds fault is taken. -/
theorem datapathExecute_of_ge {g : Signals} {s : State} {a : Word} (h : dataAddress g s = some a) (ha : 1024 ≤ a.toNat) :
    datapathExecute g s = .next (s.raiseFault (boundsFault g.op) a) := by
  have hbounds : ¬ addressInBounds a = true := fun hb => Nat.not_lt.2 ha ((addressInBounds_iff a).1 hb)
  simp only [datapathExecute, h, if_neg hbounds]

section ValidAddress
variable {s : State} {a : Word}

theorem selectedCell_readMem (rd : RegIdx) (ha : a.toNat < 1024) :
    selectedCell (signalsOf (.readMem a rd)) s = some a.toNat :=
  selectedCell_of_lt (g := signalsOf (.readMem a rd)) rfl ha

theorem selectedCell_writeMem {rs raddr : RegIdx} (ha : (s.readReg raddr).toNat < 1024) :
    selectedCell (signalsOf (.writeMem rs raddr)) s = some (s.readReg raddr).toNat :=
  selectedCell_of_lt (g := signalsOf (.writeMem rs raddr)) rfl ha

theorem selectedCell_popcnt (rd : RegIdx) (ha : a.toNat < 1024) :
    selectedCell (signalsOf (.popcnt rd a)) s = some a.toNat :=
  selectedCell_of_lt (g := signalsOf (.popcnt rd a)) rfl ha

/-- READ_MEM's ports at a valid address: the cell is read and written back (R111). -/
theorem ports_readMem (rd : RegIdx) (ha : a.toNat < 1024) :
    memReadData (signalsOf (.readMem a rd)) s = some (s.readCell a.toNat) ∧
      memWritePort (signalsOf (.readMem a rd)) s = none ∧
      writeBack (signalsOf (.readMem a rd)) s = some (rd, s.readCell a.toNat) := by
  have hread : memReadData (signalsOf (.readMem a rd)) s = some (s.readCell a.toNat) := by
    rw [memReadData, selectedCell_readMem rd ha]
    rfl
  exact ⟨hread, rfl, by rw [writeBack, hread]; rfl⟩

/-- WRITE_MEM's ports at a valid address: the cell is written from register read port 2 (R116). -/
theorem ports_writeMem {rs raddr : RegIdx} (ha : (s.readReg raddr).toNat < 1024) :
    memReadData (signalsOf (.writeMem rs raddr)) s = none ∧
      memWritePort (signalsOf (.writeMem rs raddr)) s = some ((s.readReg raddr).toNat, s.readReg rs) ∧
      writeBack (signalsOf (.writeMem rs raddr)) s = none := by
  refine ⟨rfl, ?_, rfl⟩
  rw [memWritePort, selectedCell_writeMem ha]
  rfl

/-- POPCNT's ports at a valid address: the count of the cell read goes to the cell and to the register (R132; D4, log 5). -/
theorem ports_popcnt (rd : RegIdx) (ha : a.toNat < 1024) :
    memReadData (signalsOf (.popcnt rd a)) s = some (s.readCell a.toNat) ∧
      memWritePort (signalsOf (.popcnt rd a)) s = some (a.toNat, popcountWord (s.readCell a.toNat)) ∧
      writeBack (signalsOf (.popcnt rd a)) s = some (rd, popcountWord (s.readCell a.toNat)) := by
  have hread : memReadData (signalsOf (.popcnt rd a)) s = some (s.readCell a.toNat) := by
    rw [memReadData, selectedCell_popcnt rd ha]
    rfl
  exact ⟨hread, by rw [memWritePort, selectedCell_popcnt rd ha, hread]; rfl, by rw [writeBack, hread]; rfl⟩

end ValidAddress

/-- The datapath does exactly what `exec` does, at every address. -/
theorem datapathExecute_signalsOf (i : Instr) (s : State) : datapathExecute (signalsOf i) s = exec i s := by
  cases i with
  | loadConst rd imm24 => rfl
  | readMem a rd =>
    rcases Nat.lt_or_ge a.toNat 1024 with h | h
    · obtain ⟨-, hwrite, hback⟩ := ports_readMem (s := s) rd h
      rw [datapathExecute_of_lt rfl h, hwrite, hback, exec_readMem_of_lt h]
      rfl
    · rw [datapathExecute_of_ge rfl h, exec_readMem_of_ge h]
      rfl
  | writeMem rs raddr =>
    rcases Nat.lt_or_ge (s.readReg raddr).toNat 1024 with h | h
    · obtain ⟨-, hwrite, hback⟩ := ports_writeMem (rs := rs) h
      rw [datapathExecute_of_lt rfl h, hwrite, hback, exec_writeMem_of_lt h]
      rfl
    · rw [datapathExecute_of_ge rfl h, exec_writeMem_of_ge h]
      rfl
  | popcnt rd a =>
    rcases Nat.lt_or_ge a.toNat 1024 with h | h
    · obtain ⟨-, hwrite, hback⟩ := ports_popcnt (s := s) rd h
      rw [datapathExecute_of_lt rfl h, hwrite, hback, exec_popcnt_of_lt h]
      rfl
    · rw [datapathExecute_of_ge rfl h, exec_popcnt_of_ge h]
      rfl

/-- Settles O49: the slices are the operands, and the ports do what `exec` does with them. -/
theorem datapathRefinesExec : Obligations.DatapathRefinesExec := by
  intro bytes i w s h
  rw [decoderOutputs_of_decode h, datapathExecute_signalsOf]

/-! The ports used (R176, R177). -/

/-- With a valid data address or none, the ports are those of the table. -/
theorem portsDriven_of_valid {i : Instr} {s : State} (h : ∀ a, dataAddress (signalsOf i) s = some a → a.toNat < 1024) :
    portsDriven (signalsOf i) s = portUse i.op := by
  cases i with
  | loadConst rd imm24 => rfl
  | readMem a rd =>
    obtain ⟨hread, hwrite, hback⟩ := ports_readMem (s := s) rd (h a rfl)
    rw [portsDriven, hread, hwrite, hback]
    rfl
  | writeMem rs raddr =>
    obtain ⟨hread, hwrite, hback⟩ := ports_writeMem (rs := rs) (h (s.readReg raddr) rfl)
    rw [portsDriven, hread, hwrite, hback]
    rfl
  | popcnt rd a =>
    obtain ⟨hread, hwrite, hback⟩ := ports_popcnt (s := s) rd (h a rfl)
    rw [portsDriven, hread, hwrite, hback]
    rfl

/-- At an invalid data address both memory ports and the register write port are off. -/
theorem ports_off_of_invalid {i : Instr} {s : State} {a : Word} (h : dataAddress (signalsOf i) s = some a)
    (ha : 1024 ≤ a.toNat) :
    memReadData (signalsOf i) s = none ∧ memWritePort (signalsOf i) s = none ∧ writeBack (signalsOf i) s = none := by
  have hsel := selectedCell_of_ge h ha
  have hread := memReadData_of_selectedCell_none hsel
  refine ⟨hread, memWritePort_of_selectedCell_none hsel, ?_⟩
  cases i with
  | loadConst rd imm24 => cases h
  | readMem a rd => rw [writeBack, hread]; rfl
  | writeMem rs raddr => rfl
  | popcnt rd a => rw [writeBack, hread]; rfl

/-- What stays on at an invalid data address: the fetch and WRITE_MEM's register reads. -/
theorem portsDriven_of_invalid {i : Instr} {s : State} {a : Word} (h : dataAddress (signalsOf i) s = some a)
    (ha : 1024 ≤ a.toNat) : portsDriven (signalsOf i) s = (portUse i.op).beforeAccess := by
  obtain ⟨hread, hwrite, hback⟩ := ports_off_of_invalid h ha
  rw [portsDriven, hread, hwrite, hback]
  cases i <;> rfl

/-- Settles O50: the slices of any integer are an instruction's operands. -/
theorem portsDrivenAreTheTablesPorts : Obligations.PortsDrivenAreTheTablesPorts := by
  intro op I s
  rw [decoderOutputs_eq_signalsOf]
  have hop := instrOfInt_op op I.toNat
  refine ⟨fun h => ?valid, fun a h ha => ?invalid⟩
  case valid => rw [portsDriven_of_valid h, hop]
  case invalid => exact ⟨by rw [portsDriven_of_invalid h ha, hop], ports_off_of_invalid h ha⟩

/-- An executed instruction ends `Faulted` exactly when it has a data address and that address is invalid (R49). -/
theorem exec_faulted_iff {i : Instr} {s t : State} (hrun : s.runState ≠ .faulted) (h : exec i s = .next t) :
    t.runState = .faulted ↔ ∃ a, dataAddress (signalsOf i) s = some a ∧ 1024 ≤ a.toNat := by
  have hsome : ∀ b : Word, (∃ a, some b = some a ∧ 1024 ≤ a.toNat) ↔ 1024 ≤ b.toNat := by simp
  obtain ⟨t', ht', hfault⟩ := eachInstructionRaisesOnlyItsOwnFault.1 i s hrun
  obtain rfl := Host.Outcome.next.inj (h.symm.trans ht')
  cases i with
  | loadConst rd imm24 => exact iff_of_false hfault (by rintro ⟨a, ha, -⟩; cases ha)
  | readMem a rd => exact hfault.1.trans (hsome a).symm
  | writeMem rs raddr => exact hfault.1.trans (hsome (s.readReg raddr)).symm
  | popcnt rd a => exact hfault.1.trans (hsome a).symm

/-- The ports of a step that executes an instruction are those its signals drive. -/
theorem stepPorts_of_fetch_instr {s : State} {i : Instr} {w : Nat} (hrun : s.runState = .running)
    (hfetch : s.fetch = .instr i w) : stepPorts s = portsDriven (signalsOf i) s := by
  simp only [stepPorts, hrun, hfetch]
  rw [decoderOutputs_of_decode hfetch]

/-- Settles O60: an executed instruction's bounds check decides the ports, and a decode fault uses the fetch alone. -/
theorem stepUsesTheTablesPortsUpToItsFault : Obligations.StepUsesTheTablesPortsUpToItsFault := by
  intro s t h
  obtain ⟨hrun, hcases⟩ := step_cases h
  refine ⟨fun i w hfetch => ?executed, fun hnone => ?decodeFault⟩
  case executed =>
    have hfault := exec_faulted_iff (by simp [hrun]) ((step_of_fetch_instr hrun hfetch).symm.trans h)
    rw [stepPorts_of_fetch_instr hrun hfetch]
    split
    case isTrue hfaulted =>
      obtain ⟨a, hdata, ha⟩ := hfault.1 hfaulted
      exact portsDriven_of_invalid hdata ha
    case isFalse hok => exact portsDriven_of_valid fun a hdata => not_le.1 fun ha => hok (hfault.2 ⟨a, hdata, ha⟩)
  case decodeFault =>
    rcases hcases with ⟨i, w, hfetch, -⟩ | ⟨tag, hfetch, -⟩ | ⟨tag, n, hfetch, -⟩
    · exact absurd hfetch (hnone i w)
    · simp only [stepPorts, hrun, hfetch]
    · simp only [stepPorts, hrun, hfetch]

end Sys2Proof.Machine
end

section
/-! The host's side (10_state.md section 5, 20_memory.md section 8, 60_exceptions.md): status codes, the read-out port, and what is
observed after a fault. -/

namespace Sys2Proof.Machine

/-- Settles O51: the codes one by one; two different values, and a value and an unused code, differ in every case. -/
theorem statusCodesAreDistinct : Obligations.StatusCodesAreDistinct := by
  refine ⟨⟨rfl, rfl, rfl⟩, ⟨rfl, rfl, rfl, rfl, rfl, rfl⟩, ?runState, ?faultKind, ?unusedRunState, ?unusedFaultKind⟩
  case runState =>
    intro a b h
    cases a <;> cases b <;> revert h <;> decide
  case faultKind =>
    intro a b h
    cases a <;> cases b <;> revert h <;> decide
  case unusedRunState =>
    intro a
    cases a <;> decide
  case unusedFaultKind =>
    intro a
    cases a <;> decide

/-! The read-out port (R58, R150). -/

theorem validRange_iff (start stop : Int) : validRange start stop = true ↔ 0 ≤ start ∧ start ≤ stop ∧ stop ≤ 1024 := by
  simp [validRange, and_assoc]

/-- A request that is no pair of integers is refused before anything else is looked at. -/
theorem readSlice_of_not_pair {request : List HostValue} (h : ∀ a b : Int, request ≠ [.int a, .int b]) (s : State) :
    s.readSlice request = .invalidMemoryRangeFormat := by
  unfold State.readSlice
  split
  case h_1 a b => exact absurd rfl (h a b)
  case h_2 => rfl

theorem readSlice_of_bad_range {a b : Int} (h : ¬ (0 ≤ a ∧ a ≤ b ∧ b ≤ 1024)) (s : State) :
    s.readSlice [.int a, .int b] = .memoryRangeOutOfBounds :=
  if_neg fun hrange => h ((validRange_iff a b).1 hrange)

/-- A good range is answered by the run state. -/
theorem readSlice_of_range {a b : Int} (h : 0 ≤ a ∧ a ≤ b ∧ b ≤ 1024) (s : State) :
    s.readSlice [.int a, .int b] = if s.runState = .halted then .ok (s.slice a.toNat b.toNat) else .noResult := by
  have hrange : s.readSlice [.int a, .int b] = _ := if_pos ((validRange_iff a b).2 h)
  rw [hrange]
  cases s.runState <;> rfl

@[simp] theorem slice_length (s : State) (start stop : Nat) : (s.slice start stop).length = stop - start := by
  rw [State.slice, List.length_map, List.length_range']

/-- The cells are in address order. -/
theorem slice_getElem? (s : State) {start stop k : Nat} (h : k < stop - start) :
    (s.slice start stop)[k]? = some (s.readCell (start + k)) := by
  simp [State.slice, List.getElem?_range' h]

/-- Settles O52: format, then range, then run state; the cells of a halted run are the slice. -/
theorem readOutPortAnswersInOrder : Obligations.ReadOutPortAnswersInOrder := by
  refine ⟨fun s request h => readSlice_of_not_pair h s, fun s a b h => readSlice_of_bad_range h s, ?noResult, ?cells⟩
  case noResult =>
    intro s a b h0 hab hb hrun
    rw [readSlice_of_range ⟨h0, hab, hb⟩, if_neg hrun]
  case cells =>
    intro s a n han hrun
    refine ⟨s.slice a (a + n), ?_, by simp, fun k hk => slice_getElem? s (by omega)⟩
    rw [readSlice_of_range (by omega), if_pos hrun, Int.toNat_natCast, Int.toNat_natCast]

/-- Settles O53: a faulted state is observed by its record, and its port answers by the request alone. -/
theorem faultedStatesShowOnlyTheRecord : Obligations.FaultedStatesShowOnlyTheRecord := by
  rintro s t hs ht ⟨hkind, hpc, hinfo⟩
  refine ⟨?_, ?_, fun request => ?_⟩
  · simp only [State.observe, hs, ht, hkind, hpc, hinfo]
  · simp only [State.status, hs, ht, hkind, hpc, hinfo]
  · simp only [State.readSlice, hs, ht]

end Sys2Proof.Machine
end

section
/-! The translator's checks of one line and its operand ranges (30_encoding.md section 6, R84 to R87, R93). -/

namespace Sys2Proof.Machine

/-- Operands parse to an instruction of the line's opcode (R82). -/
theorem parseOperands_op {op : Op} {args : List Text} {r : RawInstr} (h : parseOperands op args = .ok r) : r.op = op := by
  unfold parseOperands at h
  split at h
  · split at h
    · obtain rfl := Except.ok.inj h
      rfl
    · cases h
  · cases h

/-- The greatest value of a field is one below the number of its values (R85). -/
theorem maxB_eq (op : Op) : (op.maxB : Int) = 2 ^ op.widthB - 1 := by
  cases op <;> decide

theorem maxC_eq (op : Op) : (op.maxC : Int) = 2 ^ op.widthC - 1 := by
  cases op <;> decide

theorem bInRange_iff (r : RawInstr) : r.bInRange = true ↔ 0 ≤ r.b ∧ r.b < 2 ^ r.op.widthB := by
  rw [RawInstr.bInRange, Bool.and_eq_true, decide_eq_true_iff, decide_eq_true_iff, maxB_eq, Int.le_sub_one_iff]

theorem cInRange_iff (r : RawInstr) : r.cInRange = true ↔ 0 ≤ r.c ∧ r.c < 2 ^ r.op.widthC := by
  rw [RawInstr.cInRange, Bool.and_eq_true, decide_eq_true_iff, decide_eq_true_iff, maxC_eq, Int.le_sub_one_iff]

/-- An instruction as written is its opcode with its two field values (R82). -/
theorem toRaw_eq (i : Instr) : i.toRaw = ⟨i.op, i.fieldB, i.fieldC⟩ := by
  cases i <;> rfl

/-- In-range operands are narrowed without loss (R85). -/
theorem toRaw_instrOfFields {r : RawInstr} (hb : r.bInRange = true) (hc : r.cInRange = true) :
    (instrOfFields r.op r.b.toNat r.c.toNat).toRaw = r := by
  obtain ⟨hb0, hb⟩ := (bInRange_iff r).1 hb
  obtain ⟨hc0, hc⟩ := (cInRange_iff r).1 hc
  have hbNat : r.b.toNat < 2 ^ r.op.widthB := (Int.toNat_lt hb0).2 (by exact_mod_cast hb)
  have hcNat : r.c.toNat < 2 ^ r.op.widthC := (Int.toNat_lt hc0).2 (by exact_mod_cast hc)
  rw [toRaw_eq, instrOfFields_op, fieldB_instrOfFields, fieldC_instrOfFields, Nat.mod_eq_of_lt hbNat, Nat.mod_eq_of_lt hcNat,
    Int.toNat_of_nonneg hb0, Int.toNat_of_nonneg hc0]

/-! The three answers of the range checks (R84, R86). -/

theorem narrow_of_b_bad {r : RawInstr} (hb : r.bInRange = false) : narrow r = .error (.fieldOutOfRange .b r.b r.op) := by
  simp [narrow, hb]

theorem narrow_of_c_bad {r : RawInstr} (hb : r.bInRange = true) (hc : r.cInRange = false) :
    narrow r = .error (.fieldOutOfRange .c r.c r.op) := by
  simp [narrow, hb, hc]

theorem narrow_of_inRange {r : RawInstr} (hb : r.bInRange = true) (hc : r.cInRange = true) :
    ∃ i, narrow r = .ok i ∧ i.toRaw = r :=
  ⟨_, by simp [narrow, hb, hc], toRaw_instrOfFields hb hc⟩

/-- A line with an unknown mnemonic stops there (R84; log 14). -/
theorem translateLine_of_unknown {line t : Text} {args : List Text} (htokens : tokens line = t :: args)
    (hcomment : t.head? ≠ some '#') (hop : opOfToken t = none) : translateLine line = .error (.unknownOpcode t) := by
  have hparse : parseLine line = .error (.unknownOpcode t) := by simp only [parseLine, htokens, if_neg hcomment, hop]
  simp only [translateLine, hparse]

/-- A line that parses is decided by the range checks (R84). -/
theorem translateLine_of_parsed {line t : Text} {args : List Text} {op : Op} {r : RawInstr}
    (htokens : tokens line = t :: args) (hcomment : t.head? ≠ some '#') (hop : opOfToken t = some op)
    (hargs : parseOperands op args = .ok r) : translateLine line = (narrow r).map some := by
  have hparse : parseLine line = .ok (some r) := by
    simp only [parseLine, htokens, if_neg hcomment, hop, hargs, Except.map]
  simp only [translateLine, hparse]

/-- Settles O54: the mnemonic is looked up first, and `narrow` checks B before C. -/
theorem validationOrderOfALine : Obligations.ValidationOrderOfALine := by
  refine ⟨fun line t args => translateLine_of_unknown, ?ranges⟩
  intro line t args op r htokens hcomment hop hargs
  obtain rfl := parseOperands_op hargs
  rw [translateLine_of_parsed htokens hcomment hop hargs]
  refine ⟨fun hb => ?_, fun hb hc => ?_, fun hb hc => ?_⟩
  · rw [narrow_of_b_bad hb]
    rfl
  · rw [narrow_of_c_bad hb hc]
    rfl
  · obtain ⟨i, hi, hraw⟩ := narrow_of_inRange hb hc
    exact ⟨i, by rw [hi]; rfl, hraw⟩

/-- Settles O55: the range checks are the field widths, and in-range operands survive narrowing and the round trip. -/
theorem encodesExactlyTheInRangeOperands : Obligations.EncodesExactlyTheInRangeOperands := by
  refine ⟨fun op b c hb0 hb hc0 hc => ?inRange, fun op b c h => ?badB, fun op b c hb0 hb h => ?badC⟩
  case inRange =>
    obtain ⟨i, hi, hraw⟩ := narrow_of_inRange (r := ⟨op, b, c⟩) ((bInRange_iff _).2 ⟨hb0, hb⟩)
      ((cInRange_iff _).2 ⟨hc0, hc⟩)
    obtain rfl : i.op = op := congrArg RawInstr.op ((toRaw_eq i).symm.trans hraw)
    refine ⟨encode i, i, by rw [encodeRaw, hi]; rfl, encode_length i, ?_, hraw⟩
    simpa [Instr.width] using decode_encode_append i []
  case badB =>
    have hb : RawInstr.bInRange ⟨op, b, c⟩ = false := Bool.eq_false_iff.2 fun hin => by
      obtain ⟨h0, hlt⟩ := (bInRange_iff _).1 hin
      exact h.elim (not_lt.2 h0) (not_le.2 hlt)
    rw [encodeRaw, narrow_of_b_bad hb]
    rfl
  case badC =>
    have hc : RawInstr.cInRange ⟨op, b, c⟩ = false := Bool.eq_false_iff.2 fun hin => by
      obtain ⟨h0, hlt⟩ := (cInRange_iff _).1 hin
      exact h.elim (not_lt.2 h0) (not_le.2 hlt)
    rw [encodeRaw, narrow_of_c_bad ((bInRange_iff _).2 ⟨hb0, hb⟩) hc]
    rfl

end Sys2Proof.Machine
end
